-- ==== Sys2Proof/Word.lean ====
section
/-! DEFINITION. Word.lean: the machine's word types (spec/00_scope.md R5, R8). Every value is unsigned; nothing is ever sign extended. -/

namespace Sys2Proof

/-- A byte of memory, the content of a V register or of a timer (R5). -/
abbrev Byte := BitVec 8

/-- An opcode, the program counter, the index register, a stack entry (R5). -/
abbrev Word := BitVec 16

/-- The field `nnn` of an opcode: a 12-bit address (spec/30_encoding.md R91). -/
abbrev Addr := BitVec 12

/-- The index of a V register: the fields `x` and `y` of an opcode (R91). -/
abbrev Reg := Fin 16

/-- VF, the register six instructions also write as a flag (spec/10_state.md R21). -/
abbrev vF : Reg := 15

end Sys2Proof
end

