-- ==== Sys2Proof/Syntax.lean ====
section
/-! DEFINITION. Syntax.lean: the 34 instructions, one constructor per row of spec/opcode_table.json, in the order of spec/30_encoding.md R103. -/

namespace Sys2Proof

/-- The instructions (spec/30_encoding.md R103). An ignored field (R100) is no argument. -/
inductive Instr where
  /-- CLS, `00E0` (R220). -/
  | cls
  /-- RET, `00EE` (R150). -/
  | ret
  /-- JP, `1NNN` (R151). -/
  | jp (nnn : Addr)
  /-- CALL, `2NNN` (R152). -/
  | call (nnn : Addr)
  /-- SE_VX_NN, `3XNN` (R153). -/
  | seVxNn (x : Reg) (nn : Byte)
  /-- SNE_VX_NN, `4XNN` (R154). -/
  | sneVxNn (x : Reg) (nn : Byte)
  /-- SE_VX_VY, `5XY0`, low nibble ignored (R155). -/
  | seVxVy (x y : Reg)
  /-- LD_VX_NN, `6XNN` (R170). -/
  | ldVxNn (x : Reg) (nn : Byte)
  /-- ADD_VX_NN, `7XNN` (R171). -/
  | addVxNn (x : Reg) (nn : Byte)
  /-- LD_VX_VY, `8XY0` (R172). -/
  | ldVxVy (x y : Reg)
  /-- OR, `8XY1` (R173). -/
  | or (x y : Reg)
  /-- AND, `8XY2` (R174). -/
  | and (x y : Reg)
  /-- XOR, `8XY3` (R175). -/
  | xor (x y : Reg)
  /-- ADD_VX_VY, `8XY4` (R176). -/
  | addVxVy (x y : Reg)
  /-- SUB, `8XY5` (R177). -/
  | sub (x y : Reg)
  /-- SHR, `8XY6`, y ignored (R178). -/
  | shr (x : Reg)
  /-- SUBN, `8XY7` (R179). -/
  | subn (x y : Reg)
  /-- SHL, `8XYE`, y ignored (R180). -/
  | shl (x : Reg)
  /-- SNE_VX_VY, `9XY0`, low nibble ignored (R156). -/
  | sneVxVy (x y : Reg)
  /-- LD_I_NNN, `ANNN` (R200). -/
  | ldINnn (nnn : Addr)
  /-- JP_V0, `BNNN` (R157). -/
  | jpV0 (nnn : Addr)
  /-- RND, `CXNN` (R181). -/
  | rnd (x : Reg) (nn : Byte)
  /-- DRW, `DXYN`; `n` is a count of rows, 0 to 15 (R221, R93). -/
  | drw (x y : Reg) (n : Nat)
  /-- SKP, `EX9E` (R240). -/
  | skp (x : Reg)
  /-- SKNP, `EXA1` (R241). -/
  | sknp (x : Reg)
  /-- LD_VX_DT, `FX07` (R242). -/
  | ldVxDt (x : Reg)
  /-- LD_VX_K, `FX0A` (R243). -/
  | ldVxK (x : Reg)
  /-- LD_DT_VX, `FX15` (R244). -/
  | ldDtVx (x : Reg)
  /-- LD_ST_VX, `FX18` (R245). -/
  | ldStVx (x : Reg)
  /-- ADD_I_VX, `FX1E` (R201). -/
  | addIVx (x : Reg)
  /-- LD_F_VX, `FX29` (R202). -/
  | ldFVx (x : Reg)
  /-- LD_B_VX, `FX33` (R203). -/
  | ldBVx (x : Reg)
  /-- LD_MEM_VX, `FX55` (R204). -/
  | ldMemVx (x : Reg)
  /-- LD_VX_MEM, `FX65` (R205). -/
  | ldVxMem (x : Reg)
  deriving DecidableEq, Repr

end Sys2Proof
end

