-- ==== Sys2Proof/WellFormed.lean ====
section
/-! DEFINITION. WellFormed.lean: which terms of `Instr` an opcode can hold. Register indexes, bytes and 12-bit addresses carry their bound in their type; the sprite height is a plain count, checked here. -/

namespace Sys2Proof

/-- DRW's height is the 4-bit field `n`, "an unsigned count 0 to 15" (spec/30_encoding.md R93); it is the one operand whose type does not bound it. -/
def Instr.wf (i : Instr) : Bool :=
  match i with
  | .drw _ _ n => n < 16
  | .cls | .ret | .jp _ | .call _ | .seVxNn _ _ | .sneVxNn _ _ | .seVxVy _ _ | .ldVxNn _ _
  | .addVxNn _ _ | .ldVxVy _ _ | .or _ _ | .and _ _ | .xor _ _ | .addVxVy _ _ | .sub _ _
  | .shr _ | .subn _ _ | .shl _ | .sneVxVy _ _ | .ldINnn _ | .jpV0 _ | .rnd _ _ | .skp _
  | .sknp _ | .ldVxDt _ | .ldVxK _ | .ldDtVx _ | .ldStVx _ | .addIVx _ | .ldFVx _ | .ldBVx _
  | .ldMemVx _ | .ldVxMem _ => true

end Sys2Proof
end

