-- ==== Sys2Proof/Decode.lean ====
section
/-! DEFINITION. Decode.lean: the decoder of spec/30_encoding.md R102, the encoder and the opcode map R103 beside it, and the byte order of an opcode in memory (spec/20_memory.md R67). -/

namespace Sys2Proof

/-- Why the decoder refuses a word. -/
inductive Reject where
  /-- A word of the unknown space (R101), named by itself. The step executes it as the reported no-op of
  spec/40_step_cycle.md R127, so nothing is lost: safe. -/
  | unknownOpcode (op : Word)
  deriving DecidableEq, Repr

/-- `op[15:8] = mem[PC]` and `op[7:0] = mem[PC+1]` (spec/20_memory.md R67). -/
def opcodeOfBytes (hi lo : Byte) : Word := hi ++ lo

/-- The byte of an opcode that lies at PC (R67). -/
def highByte (op : Word) : Byte := op.extractLsb' 8 8

/-- The byte of an opcode that lies at PC + 1 (R67). -/
def lowByte (op : Word) : Byte := op.extractLsb' 0 8

/-- The register a 4-bit field names (R93). -/
def regOfBits (b : BitVec 4) : Reg := ⟨b.toNat, b.isLt⟩

/-- The 4-bit field that names a register. -/
def regBits (r : Reg) : BitVec 4 := BitVec.ofNat 4 r.val

/-- `fam` = bits 15:12 (R91). -/
def famField (op : Word) : BitVec 4 := op.extractLsb' 12 4

/-- `x` = bits 11:8 (R91). -/
def xField (op : Word) : Reg := regOfBits (op.extractLsb' 8 4)

/-- `y` = bits 7:4 (R91). -/
def yField (op : Word) : Reg := regOfBits (op.extractLsb' 4 4)

/-- `n` = bits 3:0 (R91). -/
def nField (op : Word) : BitVec 4 := op.extractLsb' 0 4

/-- `nn` = bits 7:0 (R91). -/
def nnField (op : Word) : Byte := op.extractLsb' 0 8

/-- `nnn` = bits 11:0 (R91). -/
def nnnField (op : Word) : Addr := op.extractLsb' 0 12

/-- Family 0x0 is selected on the whole word (R96). -/
def decodeFamily0 (op : Word) : Except Reject Instr :=
  if op = 0x00E0#16 then .ok .cls
  else if op = 0x00EE#16 then .ok .ret
  else .error (.unknownOpcode op)

/-- Family 0x8 is selected on the trailing nibble (R97). -/
def decodeFamily8 (op : Word) : Except Reject Instr :=
  match nField op with
  | 0x0#4 => .ok (.ldVxVy (xField op) (yField op))
  | 0x1#4 => .ok (.or (xField op) (yField op))
  | 0x2#4 => .ok (.and (xField op) (yField op))
  | 0x3#4 => .ok (.xor (xField op) (yField op))
  | 0x4#4 => .ok (.addVxVy (xField op) (yField op))
  | 0x5#4 => .ok (.sub (xField op) (yField op))
  | 0x6#4 => .ok (.shr (xField op))
  | 0x7#4 => .ok (.subn (xField op) (yField op))
  | 0xE#4 => .ok (.shl (xField op))
  | _ => .error (.unknownOpcode op)

/-- Family 0xE is selected on the trailing byte (R98). -/
def decodeFamilyE (op : Word) : Except Reject Instr :=
  match nnField op with
  | 0x9E#8 => .ok (.skp (xField op))
  | 0xA1#8 => .ok (.sknp (xField op))
  | _ => .error (.unknownOpcode op)

/-- Family 0xF is selected on the trailing byte (R99). -/
def decodeFamilyF (op : Word) : Except Reject Instr :=
  match nnField op with
  | 0x07#8 => .ok (.ldVxDt (xField op))
  | 0x0A#8 => .ok (.ldVxK (xField op))
  | 0x15#8 => .ok (.ldDtVx (xField op))
  | 0x18#8 => .ok (.ldStVx (xField op))
  | 0x1E#8 => .ok (.addIVx (xField op))
  | 0x29#8 => .ok (.ldFVx (xField op))
  | 0x33#8 => .ok (.ldBVx (xField op))
  | 0x55#8 => .ok (.ldMemVx (xField op))
  | 0x65#8 => .ok (.ldVxMem (xField op))
  | _ => .error (.unknownOpcode op)

/-- The decoder (R94, R102): total on 16-bit words. The last arm is family 0xF, the one nibble left. -/
def decode (op : Word) : Except Reject Instr :=
  match famField op with
  | 0x0#4 => decodeFamily0 op
  | 0x1#4 => .ok (.jp (nnnField op))
  | 0x2#4 => .ok (.call (nnnField op))
  | 0x3#4 => .ok (.seVxNn (xField op) (nnField op))
  | 0x4#4 => .ok (.sneVxNn (xField op) (nnField op))
  | 0x5#4 => .ok (.seVxVy (xField op) (yField op))
  | 0x6#4 => .ok (.ldVxNn (xField op) (nnField op))
  | 0x7#4 => .ok (.addVxNn (xField op) (nnField op))
  | 0x8#4 => decodeFamily8 op
  | 0x9#4 => .ok (.sneVxVy (xField op) (yField op))
  | 0xA#4 => .ok (.ldINnn (nnnField op))
  | 0xB#4 => .ok (.jpV0 (nnnField op))
  | 0xC#4 => .ok (.rnd (xField op) (nnField op))
  | 0xD#4 => .ok (.drw (xField op) (yField op) (nField op).toNat)
  | 0xE#4 => decodeFamilyE op
  | _ => decodeFamilyF op

/-- Format XYN (R92). -/
def packXyn (fam : BitVec 4) (x y : Reg) (n : BitVec 4) : Word := fam ++ regBits x ++ regBits y ++ n

/-- Formats XNN and XSS (R92). -/
def packXnn (fam : BitVec 4) (x : Reg) (nn : Byte) : Word := fam ++ regBits x ++ nn

/-- Format NNN (R92). -/
def packNnn (fam : BitVec 4) (nnn : Addr) : Word := fam ++ nnn

/-- The encoder (R92, R103): the opcode of an instruction, an ignored field 0 as an assembler emits it (R100). -/
def encode (i : Instr) : Word :=
  match i with
  | .cls => 0x00E0#16
  | .ret => 0x00EE#16
  | .jp nnn => packNnn 0x1#4 nnn
  | .call nnn => packNnn 0x2#4 nnn
  | .seVxNn x nn => packXnn 0x3#4 x nn
  | .sneVxNn x nn => packXnn 0x4#4 x nn
  | .seVxVy x y => packXyn 0x5#4 x y 0x0#4
  | .ldVxNn x nn => packXnn 0x6#4 x nn
  | .addVxNn x nn => packXnn 0x7#4 x nn
  | .ldVxVy x y => packXyn 0x8#4 x y 0x0#4
  | .or x y => packXyn 0x8#4 x y 0x1#4
  | .and x y => packXyn 0x8#4 x y 0x2#4
  | .xor x y => packXyn 0x8#4 x y 0x3#4
  | .addVxVy x y => packXyn 0x8#4 x y 0x4#4
  | .sub x y => packXyn 0x8#4 x y 0x5#4
  | .shr x => packXyn 0x8#4 x 0 0x6#4
  | .subn x y => packXyn 0x8#4 x y 0x7#4
  | .shl x => packXyn 0x8#4 x 0 0xE#4
  | .sneVxVy x y => packXyn 0x9#4 x y 0x0#4
  | .ldINnn nnn => packNnn 0xA#4 nnn
  | .jpV0 nnn => packNnn 0xB#4 nnn
  | .rnd x nn => packXnn 0xC#4 x nn
  | .drw x y n => packXyn 0xD#4 x y (BitVec.ofNat 4 n)
  | .skp x => packXnn 0xE#4 x 0x9E#8
  | .sknp x => packXnn 0xE#4 x 0xA1#8
  | .ldVxDt x => packXnn 0xF#4 x 0x07#8
  | .ldVxK x => packXnn 0xF#4 x 0x0A#8
  | .ldDtVx x => packXnn 0xF#4 x 0x15#8
  | .ldStVx x => packXnn 0xF#4 x 0x18#8
  | .addIVx x => packXnn 0xF#4 x 0x1E#8
  | .ldFVx x => packXnn 0xF#4 x 0x29#8
  | .ldBVx x => packXnn 0xF#4 x 0x33#8
  | .ldMemVx x => packXnn 0xF#4 x 0x55#8
  | .ldVxMem x => packXnn 0xF#4 x 0x65#8

/-- One row of the opcode map (R103): a word `w` selects it when `w &&& mask = pattern`. -/
structure OpcodeRow where
  pattern : Word
  mask    : Word
  deriving DecidableEq, Repr

/-- The row of R103 an instruction belongs to. -/
def Instr.row (i : Instr) : OpcodeRow :=
  match i with
  | .cls => ⟨0x00E0#16, 0xFFFF#16⟩
  | .ret => ⟨0x00EE#16, 0xFFFF#16⟩
  | .jp _ => ⟨0x1000#16, 0xF000#16⟩
  | .call _ => ⟨0x2000#16, 0xF000#16⟩
  | .seVxNn _ _ => ⟨0x3000#16, 0xF000#16⟩
  | .sneVxNn _ _ => ⟨0x4000#16, 0xF000#16⟩
  | .seVxVy _ _ => ⟨0x5000#16, 0xF000#16⟩
  | .ldVxNn _ _ => ⟨0x6000#16, 0xF000#16⟩
  | .addVxNn _ _ => ⟨0x7000#16, 0xF000#16⟩
  | .ldVxVy _ _ => ⟨0x8000#16, 0xF00F#16⟩
  | .or _ _ => ⟨0x8001#16, 0xF00F#16⟩
  | .and _ _ => ⟨0x8002#16, 0xF00F#16⟩
  | .xor _ _ => ⟨0x8003#16, 0xF00F#16⟩
  | .addVxVy _ _ => ⟨0x8004#16, 0xF00F#16⟩
  | .sub _ _ => ⟨0x8005#16, 0xF00F#16⟩
  | .shr _ => ⟨0x8006#16, 0xF00F#16⟩
  | .subn _ _ => ⟨0x8007#16, 0xF00F#16⟩
  | .shl _ => ⟨0x800E#16, 0xF00F#16⟩
  | .sneVxVy _ _ => ⟨0x9000#16, 0xF000#16⟩
  | .ldINnn _ => ⟨0xA000#16, 0xF000#16⟩
  | .jpV0 _ => ⟨0xB000#16, 0xF000#16⟩
  | .rnd _ _ => ⟨0xC000#16, 0xF000#16⟩
  | .drw _ _ _ => ⟨0xD000#16, 0xF000#16⟩
  | .skp _ => ⟨0xE09E#16, 0xF0FF#16⟩
  | .sknp _ => ⟨0xE0A1#16, 0xF0FF#16⟩
  | .ldVxDt _ => ⟨0xF007#16, 0xF0FF#16⟩
  | .ldVxK _ => ⟨0xF00A#16, 0xF0FF#16⟩
  | .ldDtVx _ => ⟨0xF015#16, 0xF0FF#16⟩
  | .ldStVx _ => ⟨0xF018#16, 0xF0FF#16⟩
  | .addIVx _ => ⟨0xF01E#16, 0xF0FF#16⟩
  | .ldFVx _ => ⟨0xF029#16, 0xF0FF#16⟩
  | .ldBVx _ => ⟨0xF033#16, 0xF0FF#16⟩
  | .ldMemVx _ => ⟨0xF055#16, 0xF0FF#16⟩
  | .ldVxMem _ => ⟨0xF065#16, 0xF0FF#16⟩

/-- The bits of its word an instruction reads: all but an ignored field (R100). -/
def Instr.readBits (i : Instr) : Word :=
  match i with
  | .seVxVy _ _ | .sneVxVy _ _ => 0xFFF0#16
  | .shr _ | .shl _ => 0xFF0F#16
  | .cls | .ret | .jp _ | .call _ | .seVxNn _ _ | .sneVxNn _ _ | .ldVxNn _ _
  | .addVxNn _ _ | .ldVxVy _ _ | .or _ _ | .and _ _ | .xor _ _ | .addVxVy _ _ | .sub _ _
  | .subn _ _ | .ldINnn _ | .jpV0 _ | .rnd _ _ | .drw _ _ _ | .skp _
  | .sknp _ | .ldVxDt _ | .ldVxK _ | .ldDtVx _ | .ldStVx _ | .addIVx _ | .ldFVx _ | .ldBVx _
  | .ldMemVx _ | .ldVxMem _ => 0xFFFF#16

/-- The 34 rows of R103, in its order. -/
def opcodeMap : List OpcodeRow :=
  [Instr.cls, .ret, .jp 0, .call 0, .seVxNn 0 0, .sneVxNn 0 0, .seVxVy 0 0, .ldVxNn 0 0,
    .addVxNn 0 0, .ldVxVy 0 0, .or 0 0, .and 0 0, .xor 0 0, .addVxVy 0 0, .sub 0 0, .shr 0,
    .subn 0 0, .shl 0].map Instr.row ++
  [Instr.sneVxVy 0 0, .ldINnn 0, .jpV0 0, .rnd 0 0, .drw 0 0 0, .skp 0, .sknp 0, .ldVxDt 0,
    .ldVxK 0, .ldDtVx 0, .ldStVx 0, .addIVx 0, .ldFVx 0, .ldBVx 0, .ldMemVx 0, .ldVxMem 0].map
    Instr.row

/-- What the decoder reads from an instruction of spec/opcode_table.json whose bits are `w`: bit 0 is
the least significant bit of the one 16-bit word, whose high byte is stored first (R67). Bits from
`nbits` on are 0. -/
def decodeTableWord (nbits w : Nat) : Option Instr :=
  let op := BitVec.ofNat 16 (w % 2 ^ nbits)
  (decode (opcodeOfBytes (highByte op) (lowByte op))).toOption

end Sys2Proof
end

