-- ==== Sys2Proof/Config.lean ====
section
/-! DEFINITION. Config.lean: the sizes the spec fixes (spec/00_scope.md R5) and the two inputs it leaves open (R6), which have no value here. The third open parameter, FONT, is in Machine/Font.lean. -/

namespace Sys2Proof.Config

/-- `MEM_SIZE` (R5): addresses 0x000 to 0xFFF. -/
abbrev memSize : Nat := 4096

/-- `FONT_SIZE` (R5): 16 glyphs of 5 bytes at 0x000. -/
abbrev fontSize : Nat := 80

/-- `PROGRAM_BASE` (R5): where `load_program` copies to and where the first fetch reads. -/
abbrev programBase : Nat := 0x200

/-- `PROGRAM_MAX` (R5): the longest program `load_program` accepts. -/
abbrev programMax : Nat := 3584

/-- `rnd` (R6, spec/42_alu.md R181): the byte the `k`-th executed random-and draws.
FREE VALUE: no body, so nothing can be proved about any draw (notes/assumptions/3.md). -/
opaque rndDraw : Nat → Byte

/-- `KEY_PICK` (R6, spec/45_keys_timers.md R246): which of several pressed keys wait-for-key reports,
as a number that `chooseKey` reduces to a position among the pressed keys.
FREE VALUE: no body (notes/assumptions/5.md). -/
opaque keyChoice : BitVec 16 → Nat

end Sys2Proof.Config
end

