-- ==== Sys2Proof/Machine/Font.lean ====
section
/-! DEFINITION. Font.lean: the type of the parameter FONT (spec/00_scope.md R6) and the value the spec supplies for it (spec/20_memory.md R62). -/

namespace Sys2Proof.Machine

/-- The type of `FONT` (R6): 16 glyphs of 5 bytes, digit 0 first, one byte per scanline, top one first. -/
abbrev Font := Vector (Vector Byte 5) 16

/-- The customary table, the value the spec supplies for `FONT` (spec/20_memory.md R62, decision D17). PRESUMED: the
spec marks these bytes as general knowledge (notes/assumptions/2.md). -/
def customaryFont : Font :=
  #v[#v[0xF0, 0x90, 0x90, 0x90, 0xF0],
     #v[0x20, 0x60, 0x20, 0x20, 0x70],
     #v[0xF0, 0x10, 0xF0, 0x80, 0xF0],
     #v[0xF0, 0x10, 0xF0, 0x10, 0xF0],
     #v[0x90, 0x90, 0xF0, 0x10, 0x10],
     #v[0xF0, 0x80, 0xF0, 0x10, 0xF0],
     #v[0xF0, 0x80, 0xF0, 0x90, 0xF0],
     #v[0xF0, 0x10, 0x20, 0x40, 0x40],
     #v[0xF0, 0x90, 0xF0, 0x90, 0xF0],
     #v[0xF0, 0x90, 0xF0, 0x10, 0xF0],
     #v[0xF0, 0x90, 0xF0, 0x90, 0x90],
     #v[0xE0, 0x90, 0xE0, 0x90, 0xE0],
     #v[0xF0, 0x80, 0x80, 0x80, 0xF0],
     #v[0xE0, 0x90, 0x90, 0x90, 0xE0],
     #v[0xF0, 0x80, 0xF0, 0x80, 0xF0],
     #v[0xF0, 0x80, 0xF0, 0x80, 0x80]]

end Sys2Proof.Machine
end

