-- ==== Sys2Proof/Machine/State.lean ====
section
/-! DEFINITION. State.lean: the machine's state as plain data, all of spec/10_state.md R39, and the state after reset (spec/70_reset_and_hazards.md R300). -/

namespace Sys2Proof.Machine

/-- The fatal conditions `c` (spec/60_exceptions.md R260). What taking one does is stated by the spec: the
core enters `Halted(c)` and nothing else changes (R269), so it is a NEXT state with `Mode.halted c` and
`Status.fault c` in it; no step answers `Host.Outcome.fault` (notes/assumptions/1.md). -/
inductive Fault where
  /-- Raised by CALL with `SP = 16` (R262). Safe: the machine stops. -/
  | stackOverflow
  /-- Raised by RET with `SP = 0` (R263). Safe: the machine stops. -/
  | stackUnderflow
  /-- Raised by the fetch, DRW, LD_B_VX, LD_MEM_VX and LD_VX_MEM when they would reach an address of 4096
  or more; `addr` is the lowest such address (R264). Safe: the machine stops (decision D5). -/
  | memoryOutOfRange (addr : Nat)
  /-- Raised by SKP and SKNP when Vx holds 16 or more; `value` is that content (R265). Safe: the machine
  stops (decision D22). -/
  | keyIndexOutOfRange (value : Byte)
  deriving DecidableEq, Repr

/-- Why a step could have no meaning. Every instruction has one, so nothing raises this. -/
inductive Refusal where
  /-- An arm of `exec` without a meaning; no arm is. Safe: the model stops. -/
  | notModelled (mnemonic : String)
  deriving DecidableEq, Repr

/-- The machine mode (spec/10_state.md R34): an execution status, not a privilege level (spec/60_exceptions.md R272). -/
inductive Mode where
  /-- The last step completed an instruction, or none has run yet. -/
  | running
  /-- The last step was a wait-for-key that found no key pressed. -/
  | awaitingKey
  /-- A fatal condition occurred; left only by reset. -/
  | halted (c : Fault)
  deriving DecidableEq, Repr

/-- The result of the most recent step, an output no rule reads (spec/10_state.md R35). -/
inductive Status where
  | ok
  | unknownOpcode (op : Word)
  | waitingForKey
  | fault (c : Fault)
  deriving DecidableEq, Repr

/-- The bytes of memory that differ from their reset contents, in rising order of address
(spec/20_memory.md R60; the form is `Memory.wf`). -/
abbrev Memory := List Host.Cell

/-- The framebuffer as 32 rows of 64 cells; cell `y*64 + x` of spec/10_state.md R30 is bit `x` of row `y`
(notes/assumptions/7.md). -/
abbrev Screen := Vector (BitVec 64) 32

/-- The complete machine state (spec/10_state.md R39), the status output (R35), the model's own count of
random draws, and the parameter `FONT` the machine was made with. -/
structure State where
  /-- V0 to VF (R20, R21). -/
  v : Vector Byte 16
  /-- The index register I (R24). -/
  i : Word
  /-- The program counter (R22). -/
  pc : Word
  /-- The call stack (R25). -/
  stack : Vector Word 16
  /-- The stack pointer: how many entries are occupied, 0 to 16 (R26). -/
  sp : Fin 17
  /-- The delay timer (R27). -/
  dt : Byte
  /-- The sound timer (R28). -/
  st : Byte
  /-- Memory (R29). -/
  mem : Memory
  /-- The framebuffer (R30). -/
  fb : Screen
  /-- The key flags; bit `k` is key `k` (R31). -/
  key : BitVec 16
  /-- The redraw flag (R32). -/
  redraw : Bool
  /-- The tone flag (R33). -/
  tonePending : Bool
  /-- The machine mode (R34). -/
  mode : Mode
  /-- The status of the last step (R35). -/
  status : Status
  /-- The model's own: how many random bytes have been drawn (notes/assumptions/3.md). -/
  draws : Nat
  /-- The parameter `FONT` (spec/00_scope.md R6): what reset writes to 0x000 to 0x04F. Nothing in the machine
  changes it, so a statement over all states is one over all fonts (notes/assumptions/2.md). -/
  font : Font
  deriving DecidableEq, Repr

/-- The state after reset of a machine whose `FONT` is `font` (R39, R300): everything zero but PC and the font, and
the font is what an unlisted byte of memory reads as. -/
def State.resetWith (font : Font) : State where
  v := Vector.replicate 16 0
  i := 0
  pc := 0x200
  stack := Vector.replicate 16 0
  sp := 0
  dt := 0
  st := 0
  mem := []
  fb := Vector.replicate 32 0
  key := 0
  redraw := false
  tonePending := false
  mode := .running
  status := .ok
  draws := 0
  font := font

/-- The state after reset with the value the spec supplies for `FONT` (spec/20_memory.md R62). -/
def State.reset : State := State.resetWith customaryFont

end Sys2Proof.Machine
end

