-- ==== Sys2Proof/Machine/Memory.lean ====
section
/-! DEFINITION. Memory.lean: the 4096 bytes (spec/20_memory.md): reset contents, reading, writing, the canonical form of the list. Everything takes FONT as an argument (spec/00_scope.md R6). -/

namespace Sys2Proof.Machine

/-- What a byte reads as until something writes it: the reset contents (R62), `FONT` then zeros; the glyph of digit
`d` starts at `5*d`. -/
def initialByte (font : Font) (a : Nat) : Byte :=
  if h : a < Config.fontSize then
    (font[a / 5]'(Nat.div_lt_of_lt_mul h))[a % 5]'(Nat.mod_lt _ (Nat.succ_pos 4))
  else 0

/-- `mem[a]` (R60). -/
def Memory.read (font : Font) (m : Memory) (a : Nat) : Byte :=
  match m with
  | [] => initialByte font a
  | (b, v) :: rest => if a = b then v else Memory.read font rest a

/-- Puts a cell in its place in the rising order. -/
def Memory.place (m : Memory) (a : Nat) (v : Byte) : Memory :=
  match m with
  | [] => [(a, v)]
  | (b, w) :: rest => if a < b then (a, v) :: (b, w) :: rest else (b, w) :: Memory.place rest a v

/-- `mem[a] <- v` (R64): the old cell goes, and the new one is listed unless `a` would read as `v` anyway. -/
def Memory.write (font : Font) (m : Memory) (a : Nat) (v : Byte) : Memory :=
  let others := m.filter fun c => c.1 ≠ a
  if v = initialByte font a then others else Memory.place others a v

/-- The bytes at `a`, `a + 1`, ..., `n` of them. -/
def Memory.readBytes (font : Font) (m : Memory) (a n : Nat) : List Byte :=
  (List.range n).map fun k => Memory.read font m (a + k)

/-- Writes the bytes at `a`, `a + 1`, ... in order. -/
def Memory.writeBytes (font : Font) (m : Memory) (a : Nat) (bytes : List Byte) : Memory :=
  match bytes with
  | [] => m
  | b :: bs => Memory.writeBytes font (Memory.write font m a b) (a + 1) bs

/-- The canonical form: rising addresses, all in memory, no cell that only repeats the reset contents. -/
abbrev Memory.wf (font : Font) (m : Memory) : Prop :=
  m.Pairwise (fun c d => c.1 < d.1) ∧ ∀ c ∈ m, c.1 < Config.memSize ∧ c.2 ≠ initialByte font c.1

end Sys2Proof.Machine
end

