-- ==== Sys2Proof/Machine/Ops.lean ====
section
/-! DEFINITION. Ops.lean: the named operations the instructions are written in: registers, checked memory accesses, the call stack, completing an instruction, taking a fatal condition, the timer tick. -/

namespace Sys2Proof.Machine

/-- What a step or an instruction answers. -/
abbrev Result := Host.Outcome State Fault Refusal

/-- `V[x]` (spec/10_state.md R20). -/
def State.getV (s : State) (x : Reg) : Byte := s.v[x]

/-- `V[x] <- b` (R20). -/
def State.setV (s : State) (x : Reg) (b : Byte) : State := { s with v := s.v.set x.val b x.isLt }

/-- `V[15] <- flag; V[x] <- result`, in this order, so for `x = 15` the result stands
(spec/40_step_cycle.md R124, spec/42_alu.md R183). -/
def State.setFlagThenV (s : State) (flag : Byte) (x : Reg) (result : Byte) : State :=
  (s.setV vF flag).setV x result

/-- `mem[a]` (spec/20_memory.md R60), unchecked. -/
def State.byteAt (s : State) (a : Nat) : Byte := Memory.read s.font s.mem a

/-- The bytes of memory at `a`, `a + 1`, ..., `n` of them, unchecked. -/
def State.bytesAt (s : State) (a n : Nat) : List Byte := Memory.readBytes s.font s.mem a n

/-- Stores the bytes at `a`, `a + 1`, ... in order, unchecked. -/
def State.store (s : State) (a : Nat) (bytes : List Byte) : State :=
  { s with mem := Memory.writeBytes s.font s.mem a bytes }

/-- The one check of an access to the `len` bytes from address `a` on (spec/20_memory.md R64 to R66): addresses
are natural numbers, never wrapped; the fault names the lowest address out of range. No byte, no check. -/
def rangeFault (a len : Nat) : Option Fault :=
  if len ≠ 0 ∧ Config.memSize < a + len then some (.memoryOutOfRange (max a Config.memSize)) else none

/-- `MemRead` of `len` consecutive bytes, all or nothing (R64, R66). -/
def State.readBytes (s : State) (a len : Nat) : Except Fault (List Byte) :=
  match rangeFault a len with
  | some c => .error c
  | none => .ok (s.bytesAt a len)

/-- `MemWrite` of consecutive bytes, all or nothing (R64, R66). -/
def State.writeBytes (s : State) (a : Nat) (bytes : List Byte) : Except Fault State :=
  match rangeFault a bytes.length with
  | some c => .error c
  | none => .ok (s.store a bytes)

/-- The push of CALL (spec/10_state.md R26, spec/41_control_transfer.md R152). -/
def State.push (s : State) (w : Word) : Except Fault State :=
  if h : s.sp.val < 16 then
    .ok { s with stack := s.stack.set s.sp.val w h, sp := ⟨s.sp.val + 1, by omega⟩ }
  else .error .stackOverflow

/-- The pop of RET (R26, R150): the entry keeps its value (R25). -/
def State.pop (s : State) : Except Fault (Word × State) :=
  if h : s.sp.val = 0 then .error .stackUnderflow
  else .ok (s.stack[s.sp.val - 1]'(by omega), { s with sp := ⟨s.sp.val - 1, by omega⟩ })

/-- The end of a completed instruction (`Done`, spec/40_step_cycle.md R120, R132) with the next PC given. -/
def State.complete (s : State) (nextPc : Word) : State :=
  { s with pc := nextPc, mode := .running, status := .ok }

/-- The default advance (R125). -/
def State.advance (s : State) : State := s.complete (s.pc + 2)

/-- The skip PC policy (R126). -/
def State.skipIf (s : State) (condition : Bool) : State :=
  s.complete (if condition then s.pc + 4 else s.pc + 2)

/-- Taking a fatal condition (spec/40_step_cycle.md R129, spec/60_exceptions.md R269): the core halts and
records `c`; nothing is saved, no other state changes. There is no return from it (R270): only reset,
`State.resetCore`, leaves `Halted`. -/
def State.raise (s : State) (c : Fault) : State := { s with mode := .halted c, status := .fault c }

/-- An unsatisfied wait-for-key (`Wait`, R128). -/
def State.awaitKey (s : State) : State := { s with mode := .awaitingKey, status := .waitingForKey }

/-- An unknown opcode (R127, spec/60_exceptions.md R261): the reported no-op, before its tick. -/
def State.reportUnknown (s : State) (op : Word) : State :=
  { s with pc := s.pc + 2, mode := .running, status := .unknownOpcode op }

/-- The end of an instruction with one check: its result, or the fault of the check taken in the state `s`
before the instruction (R129: faults are precise). -/
def State.attempt (s : State) (r : Except Fault State) : Result :=
  match r with
  | .ok t => .next t
  | .error c => .next (s.raise c)

/-- A timer's count: down by one, and 0 stays 0 (R130). -/
def countDown (t : Byte) : Byte := if 0 < t then t - 1 else t

/-- The tick (R130): the tone is signalled when the sound timer goes from 1 to 0. -/
def State.timerTick (s : State) : State :=
  { s with
    dt := countDown s.dt
    st := countDown s.st
    tonePending := s.tonePending || s.st == 1 }

/-- Whether a step that ended with this status ticks the timers (R131, R132). -/
def Status.ticks (e : Status) : Bool :=
  match e with
  | .ok | .unknownOpcode _ => true
  | .waitingForKey | .fault _ => false

end Sys2Proof.Machine
end

