-- ==== Sys2Proof/Machine/Operands.lean ====
section
/-! DEFINITION. Operands.lean: the operand forms (spec/30_encoding.md R93): registers by index, immediates used unchanged, addresses zero extended, memory through I, keys by the value of a register. -/

namespace Sys2Proof.Machine

/-- `zext_16(nnn)` (R93). -/
def addrWord (nnn : Addr) : Word := nnn.zeroExtend 16

/-- `zext_16` of a byte (R93). -/
def byteWord (b : Byte) : Word := b.zeroExtend 16

/-- The number of a register or key as a byte. -/
def regByte (r : Reg) : Byte := BitVec.ofNat 8 r.val

/-- The address in I, a natural number from which an access counts without wrapping (spec/20_memory.md R65). -/
def State.base (s : State) : Nat := s.i.toNat

/-- V0 to Vx, the operand of register-dump (spec/43_index_memory.md R204). -/
def State.firstRegs (s : State) (x : Reg) : List Byte := s.v.toList.take (x.val + 1)

/-- V0 on receive the bytes in order, the registers above them keep their content (R205). -/
def State.loadRegs (s : State) (bytes : List Byte) : State :=
  { s with v := Vector.ofFn fun k : Fin 16 => bytes.getD k.val s.v[k] }

/-- The key flag whose number is the value `b` (spec/45_keys_timers.md R240): 16 and above is a fault. -/
def State.keyDown (s : State) (b : Byte) : Except Fault Bool :=
  if b.toNat < 16 then .ok (s.key.getLsbD b.toNat) else .error (.keyIndexOutOfRange b)

/-- The keys that are pressed, lowest first (R243). -/
def pressedKeys (keys : BitVec 16) : List Reg := (List.finRange 16).filter fun k => keys.getLsbD k.val

/-- One of the pressed keys: none of none, the only one of one, else whichever `choice` selects. -/
def chooseKey (pressed : List Reg) (choice : Nat) : Option Reg :=
  match pressed with
  | [] => none
  | [k] => some k
  | k :: ks => some ((k :: ks).getD (choice % (ks.length + 1)) k)

/-- `KEY_PICK` (R246): a pressed key, if any is; which one is a free value when there are several. -/
def keyPick (keys : BitVec 16) : Option Reg := chooseKey (pressedKeys keys) (Config.keyChoice keys)

/-- The three decimal digits of store-bcd (R203). -/
def bcdDigits (b : Byte) : List Byte :=
  [BitVec.ofNat 8 (b.toNat / 100), BitVec.ofNat 8 (b.toNat / 10 % 10), BitVec.ofNat 8 (b.toNat % 10)]

/-- Cell `k` of the framebuffer (spec/10_state.md R30). -/
def Screen.cell (fb : Screen) (k : Nat) : Bool :=
  if h : k / 64 < 32 then (fb[k / 64]).getLsbD (k % 64) else false

/-- `fb[k] <- fb[k] ^ 1` (spec/44_display.md R221). -/
def Screen.toggle (fb : Screen) (k : Nat) : Screen :=
  if h : k / 64 < 32 then fb.set (k / 64) (fb[k / 64] ^^^ (1#64 <<< (k % 64))) h else fb

end Sys2Proof.Machine
end

