-- ==== Sys2Proof/Machine/Alu.lean ====
section
/-! DEFINITION. Alu.lean: register arithmetic and logic (spec/42_alu.md). -/

namespace Sys2Proof.Machine

/-- LD_VX_NN (R170). -/
def execLdVxNn (x : Reg) (nn : Byte) (s : State) : Result := .next (s.setV x nn).advance

/-- ADD_VX_NN (R171): no flag. -/
def execAddVxNn (x : Reg) (nn : Byte) (s : State) : Result := .next (s.setV x (s.getV x + nn)).advance

/-- LD_VX_VY (R172). -/
def execLdVxVy (x y : Reg) (s : State) : Result := .next (s.setV x (s.getV y)).advance

/-- OR (R173): no flag. -/
def execOr (x y : Reg) (s : State) : Result := .next (s.setV x (s.getV x ||| s.getV y)).advance

/-- AND (R174): no flag. -/
def execAnd (x y : Reg) (s : State) : Result := .next (s.setV x (s.getV x &&& s.getV y)).advance

/-- XOR (R175): no flag. -/
def execXor (x y : Reg) (s : State) : Result := .next (s.setV x (s.getV x ^^^ s.getV y)).advance

/-- ADD_VX_VY (R176). -/
def execAddVxVy (x y : Reg) (s : State) : Result :=
  let a := s.getV x
  let b := s.getV y
  .next (s.setFlagThenV (carryFlag a b) x (a + b)).advance

/-- SUB (R177). -/
def execSub (x y : Reg) (s : State) : Result :=
  let a := s.getV x
  let b := s.getV y
  .next (s.setFlagThenV (noBorrowFlag a b) x (a - b)).advance

/-- SHR (R178): Vx in place. -/
def execShr (x : Reg) (s : State) : Result :=
  let a := s.getV x
  .next (s.setFlagThenV (lowBitFlag a) x (a >>> 1)).advance

/-- SUBN (R179). -/
def execSubn (x y : Reg) (s : State) : Result :=
  let a := s.getV x
  let b := s.getV y
  .next (s.setFlagThenV (noBorrowFlag b a) x (b - a)).advance

/-- SHL (R180): Vx in place. -/
def execShl (x : Reg) (s : State) : Result :=
  let a := s.getV x
  .next (s.setFlagThenV (highBitFlag a) x (a <<< 1)).advance

/-- The next random byte and the state in which it has been drawn (R181). FREE VALUE (notes/assumptions/3.md). -/
def State.drawByte (s : State) : Byte × State := (Config.rndDraw s.draws, { s with draws := s.draws + 1 })

/-- RND (R181). -/
def execRnd (x : Reg) (nn : Byte) (s : State) : Result :=
  .next (s.drawByte.2.setV x (s.drawByte.1 &&& nn)).advance

end Sys2Proof.Machine
end

