-- ==== Sys2Proof/Machine/Control.lean ====
section
/-! DEFINITION. Control.lean: return, jump, call, the compare skips, jump-with-offset (spec/41_control_transfer.md). -/

namespace Sys2Proof.Machine

/-- RET (R150). -/
def execRet (s : State) : Result := s.attempt (s.pop.map fun r => r.2.complete r.1)

/-- JP (R151). -/
def execJp (nnn : Addr) (s : State) : Result := .next (s.complete (addrWord nnn))

/-- CALL (R152): the address of the next instruction is pushed. -/
def execCall (nnn : Addr) (s : State) : Result :=
  s.attempt ((s.push (s.pc + 2)).map fun t => t.complete (addrWord nnn))

/-- SE_VX_NN (R153). -/
def execSeVxNn (x : Reg) (nn : Byte) (s : State) : Result := .next (s.skipIf (s.getV x == nn))

/-- SNE_VX_NN (R154). -/
def execSneVxNn (x : Reg) (nn : Byte) (s : State) : Result := .next (s.skipIf (s.getV x != nn))

/-- SE_VX_VY (R155). -/
def execSeVxVy (x y : Reg) (s : State) : Result := .next (s.skipIf (s.getV x == s.getV y))

/-- SNE_VX_VY (R156). -/
def execSneVxVy (x y : Reg) (s : State) : Result := .next (s.skipIf (s.getV x != s.getV y))

/-- JP_V0 (R157). -/
def execJpV0 (nnn : Addr) (s : State) : Result := .next (s.complete (addrWord nnn + byteWord (s.getV 0)))

end Sys2Proof.Machine
end

