-- ==== Sys2Proof/Machine/Display.lean ====
section
/-! DEFINITION. Display.lean: clear-screen and draw-sprite (spec/44_display.md). -/

namespace Sys2Proof.Machine

/-- CLS (R220). -/
def execCls (s : State) : Result :=
  .next ({ s with fb := Vector.replicate 32 0, redraw := true } : State).advance

/-- `Cell(vx, vy, row, col)` (R223): columns wrap within their row, rows from 32 on are no cells. -/
def spriteCell (vx vy row col : Nat) : Option Nat :=
  if 32 ≤ vy + row then none else some ((vy + row) * 64 + (vx + col) % 64)

/-- One pixel of a sprite: a 1 bit toggles its cell and collides if the cell was set (R221, R222, R224). The
accumulator is the framebuffer and the collision so far. -/
def drawPixel (vx vy row : Nat) (b : Byte) (acc : Screen × Bool) (col : Nat) : Screen × Bool :=
  if b.getLsbD (7 - col) then
    match spriteCell vx vy row col with
    | some k => (acc.1.toggle k, acc.2 || acc.1.cell k)
    | none => acc
  else acc

/-- The eight columns of one sprite byte, left to right. -/
def drawRow (vx vy row : Nat) (b : Byte) (acc : Screen × Bool) : Screen × Bool :=
  (List.range 8).foldl (drawPixel vx vy row b) acc

/-- The rows of a sprite from `row` on, top row first (R221). -/
def drawRows (vx vy row : Nat) (bytes : List Byte) (acc : Screen × Bool) : Screen × Bool :=
  match bytes with
  | [] => acc
  | b :: bs => drawRows vx vy (row + 1) bs (drawRow vx vy row b acc)

/-- DRW (R221): the coordinates are read before VF is written; VF and the redraw flag are written by every
draw that does not fault (R224, R225). -/
def execDrw (x y : Reg) (n : Nat) (s : State) : Result :=
  s.attempt ((s.readBytes s.base n).map fun bytes =>
    let drawn := drawRows (s.getV x).toNat (s.getV y).toNat 0 bytes (s.fb, false)
    ({ s with fb := drawn.1, redraw := true }.setV vF (flagByte drawn.2)).advance)

end Sys2Proof.Machine
end

