-- ==== Sys2Proof/Machine/Index.lean ====
section
/-! DEFINITION. Index.lean: the index register and the memory transfers (spec/43_index_memory.md). -/

namespace Sys2Proof.Machine

/-- LD_I_NNN (R200). -/
def execLdINnn (nnn : Addr) (s : State) : Result := .next ({ s with i := addrWord nnn } : State).advance

/-- ADD_I_VX (R201): modulo 65536, no flag. -/
def execAddIVx (x : Reg) (s : State) : Result :=
  .next ({ s with i := s.i + byteWord (s.getV x) } : State).advance

/-- LD_F_VX (R202): Vx is not masked to a digit. -/
def execLdFVx (x : Reg) (s : State) : Result :=
  .next ({ s with i := byteWord (s.getV x) * 5 } : State).advance

/-- LD_B_VX (R203). -/
def execLdBVx (x : Reg) (s : State) : Result :=
  s.attempt ((s.writeBytes s.base (bcdDigits (s.getV x))).map State.advance)

/-- LD_MEM_VX (R204). -/
def execLdMemVx (x : Reg) (s : State) : Result :=
  s.attempt ((s.writeBytes s.base (s.firstRegs x)).map State.advance)

/-- LD_VX_MEM (R205). -/
def execLdVxMem (x : Reg) (s : State) : Result :=
  s.attempt ((s.readBytes s.base (x.val + 1)).map fun bytes => (s.loadRegs bytes).advance)

end Sys2Proof.Machine
end

