-- ==== Sys2Proof/Machine/Keys.lean ====
section
/-! DEFINITION. Keys.lean: key skips, wait-for-key, timer moves (spec/45_keys_timers.md). -/

namespace Sys2Proof.Machine

/-- SKP (R240). -/
def execSkp (x : Reg) (s : State) : Result := s.attempt ((s.keyDown (s.getV x)).map fun down => s.skipIf down)

/-- SKNP (R241). -/
def execSknp (x : Reg) (s : State) : Result :=
  s.attempt ((s.keyDown (s.getV x)).map fun down => s.skipIf (!down))

/-- LD_VX_DT (R242). -/
def execLdVxDt (x : Reg) (s : State) : Result := .next (s.setV x s.dt).advance

/-- LD_VX_K (R243): a pressed key's number, or the wait of spec/40_step_cycle.md R128. -/
def execLdVxK (x : Reg) (s : State) : Result :=
  match keyPick s.key with
  | some k => .next (s.setV x (regByte k)).advance
  | none => .next s.awaitKey

/-- LD_DT_VX (R244). -/
def execLdDtVx (x : Reg) (s : State) : Result := .next ({ s with dt := s.getV x } : State).advance

/-- LD_ST_VX (R245). -/
def execLdStVx (x : Reg) (s : State) : Result := .next ({ s with st := s.getV x } : State).advance

end Sys2Proof.Machine
end

