-- ==== Sys2Proof/Machine/Cycle.lean ====
section
/-! DEFINITION. Cycle.lean: the phases of `step()` (spec/40_step_cycle.md R120): halted test, fetch, decode, execute, tick. -/

namespace Sys2Proof.Machine

/-- The fetch (R122): two bytes at PC, high byte first, no alignment check; out of range it is the fault of any
other two-byte access. -/
def State.fetch (s : State) : Except Fault Word :=
  match rangeFault s.pc.toNat 2 with
  | some c => .error c
  | none => .ok (opcodeOfBytes (s.byteAt s.pc.toNat) (s.byteAt (s.pc.toNat + 1)))

/-- The effect of a decoded word before the tick: the instruction's, or the reported no-op of an unknown
word (R123, R127). -/
def runDecoded (d : Except Reject Instr) (s : State) : Result :=
  match d with
  | .ok i => exec i s
  | .error (.unknownOpcode op) => .next (s.reportUnknown op)

/-- The tick phase: after the instruction's writes, in a step that completed one or met an unknown word (R131). -/
def endCycle (r : Result) : Result :=
  match r with
  | .next t => .next (if t.status.ticks then t.timerTick else t)
  | .fault c => .fault c
  | .refused e => .refused e

/-- One instruction cycle (R120). A halted core only reports its fault again (R121), which is what raising it
once more amounts to. -/
def State.cycle (s : State) : Result :=
  match s.mode with
  | .halted c => .next (s.raise c)
  | .running | .awaitingKey =>
    match s.fetch with
    | .error c => .next (s.raise c)
    | .ok op => endCycle (runDecoded (decode op) s)

end Sys2Proof.Machine
end

