-- ==== Sys2Proof/Machine/Step.lean ====
section
/-! DEFINITION. Step.lean: the step, and the placing of an instruction where the next fetch reads it. -/

namespace Sys2Proof.Machine

/-- `step()` (spec/40_step_cycle.md R120). -/
def step (s : State) : Host.Outcome State Fault Refusal := s.cycle

/-- `s` with the instruction whose bits are `w` in the two bytes at PC, high byte first (spec/20_memory.md R67); bits
from `nbits` on are 0. The host's own way to place one is `load_program` (notes/assumptions/11.md). -/
def State.withFetchWord (s : State) (nbits w : Nat) : State :=
  let op := BitVec.ofNat 16 (w % 2 ^ nbits)
  s.store s.pc.toNat [highByte op, lowByte op]

end Sys2Proof.Machine
end

