-- ==== Sys2Proof/Machine/Driver.lean ====
section
/-! DEFINITION. Driver.lean: the host's operations between steps (spec/70_reset_and_hazards.md R300 to R306; the ports of spec/10_state.md R38). -/

namespace Sys2Proof.Machine

/-- Reset (R300), in any mode; the machine keeps its `FONT`. The random draws go on, they do not start again (notes/assumptions/4.md). -/
def State.resetCore (s : State) : State := { State.resetWith s.font with draws := s.draws }

/-- What `load_program` answers (R302). -/
inductive LoadResult where
  | ok
  | programTooLarge
  deriving DecidableEq, Repr

/-- `load_program` (R302, spec/60_exceptions.md R266). -/
def State.loadProgram (s : State) (bytes : List Byte) : LoadResult × State :=
  if Config.programMax < bytes.length then (.programTooLarge, s)
  else (.ok, s.store Config.programBase bytes)

/-- `set_key` (R303); the index is a 4-bit port, so no index is out of range. -/
def State.setKey (s : State) (k : Reg) (pressed : Bool) : State :=
  { s with key := if pressed then s.key ||| (1#16 <<< k.val) else s.key &&& ~~~(1#16 <<< k.val) }

/-- `consume_redraw_flag` (R304). -/
def State.consumeRedrawFlag (s : State) : Bool × State := (s.redraw, { s with redraw := false })

/-- `pending_tone` (R305). -/
def State.takeTone (s : State) : Bool × State := (s.tonePending, { s with tonePending := false })

/-- `framebuffer` (R306): the 2048 cells, cell 0 first; nothing changes. -/
def State.framebuffer (s : State) : List Bool := (List.range 2048).map s.fb.cell

/-- The host's operations: one per port of R38 but `step`, and the random input, which is no operation. -/
inductive DriverOp where
  | reset
  | loadProgram (bytes : List Byte)
  | setKey (k : Reg) (pressed : Bool)
  | consumeRedrawFlag
  | pendingTone
  | framebuffer
  | readMode
  | readStatus
  deriving DecidableEq, Repr

/-- What an operation answers the host. -/
inductive DriverAnswer where
  | none
  | load (r : LoadResult)
  | flag (b : Bool)
  | cells (fb : List Bool)
  | mode (m : Mode)
  | status (e : Status)
  deriving DecidableEq, Repr

/-- One host operation, applied between two steps (spec/00_scope.md R7). -/
def State.driver (s : State) (op : DriverOp) : DriverAnswer × State :=
  match op with
  | .reset => (.none, s.resetCore)
  | .loadProgram bytes => (.load (s.loadProgram bytes).1, (s.loadProgram bytes).2)
  | .setKey k pressed => (.none, s.setKey k pressed)
  | .consumeRedrawFlag => (.flag s.consumeRedrawFlag.1, s.consumeRedrawFlag.2)
  | .pendingTone => (.flag s.takeTone.1, s.takeTone.2)
  | .framebuffer => (.cells s.framebuffer, s)
  | .readMode => (.mode s.mode, s)
  | .readStatus => (.status s.status, s)

end Sys2Proof.Machine
end

