-- ==== Sys2Proof/Safety.lean ====
section
/-! DEFINITION. Safety.lean: what counts as gone wrong (spec/60_exceptions.md R278), the numbered conditions (R260), the invariant of every run, and which registers an instruction may write: the terms the statements use. -/

namespace Sys2Proof.Machine

/-- The conditions the core can report (R260). -/
inductive Condition where
  | unknownOpcode (op : Word)
  | fatal (c : Fault)
  | programTooLarge
  deriving DecidableEq, Repr

/-- The numeric code of a condition (R260). -/
def Condition.code (c : Condition) : Nat :=
  match c with
  | .unknownOpcode _ => 1
  | .fatal .stackOverflow => 2
  | .fatal .stackUnderflow => 3
  | .fatal (.memoryOutOfRange _) => 4
  | .fatal (.keyIndexOutOfRange _) => 5
  | .programTooLarge => 6

/-- The condition a step's status reports; waiting for a key is none (R260). -/
def Status.condition (e : Status) : Option Condition :=
  match e with
  | .ok | .waitingForKey => none
  | .unknownOpcode op => some (.unknownOpcode op)
  | .fault c => some (.fatal c)

/-- The condition a load reports (R266). -/
def LoadResult.condition (r : LoadResult) : Option Condition :=
  match r with
  | .ok => none
  | .programTooLarge => some .programTooLarge

/-- Gone wrong (R278): halted, or the last step met an unknown opcode. Waiting for a key is no failure. -/
def State.goneWrong (s : State) : Bool :=
  match s.mode, s.status with
  | .halted _, _ => true
  | _, .unknownOpcode _ => true
  | _, _ => false

/-- Finished (spec/70_reset_and_hazards.md R309): PC addresses a JP to PC itself. -/
def State.finished (s : State) : Bool :=
  match s.fetch with
  | .error _ => false
  | .ok op =>
    match decode op with
    | .ok (.jp nnn) => addrWord nnn == s.pc
    | _ => false

/-- The record a halted core may hold: what the check that raised it compares (R262 to R265). -/
def Fault.recorded (c : Fault) (s : State) : Prop :=
  match c with
  | .stackOverflow => s.sp.val = 16
  | .stackUnderflow => s.sp.val = 0
  | .memoryOutOfRange a => Config.memSize ≤ a ∧ a < 65536
  | .keyIndexOutOfRange b => 16 ≤ b.toNat

/-- Mode and status belong together (spec/40_step_cycle.md R132). -/
def Status.agrees (e : Status) (m : Mode) : Prop :=
  match e, m with
  | .ok, .running => True
  | .unknownOpcode _, .running => True
  | .waitingForKey, .awaitingKey => True
  | .fault c, .halted d => c = d
  | _, _ => False

/-- The invariant of every run: memory in its canonical form; PC and the stack within the bounds the spec
derives (spec/10_state.md R23, spec/41_control_transfer.md R150, R152); mode and status in agreement; a halt
records a fault the state explains. -/
structure State.Inv (s : State) : Prop where
  memory : Memory.wf s.font s.mem
  pcBound : s.pc.toNat ≤ 0x10FE
  stackBound : ∀ k : Fin 16, s.stack[k].toNat ≤ 0x1000
  agrees : s.status.agrees s.mode
  recorded : ∀ c, s.mode = .halted c → c.recorded s

/-- The V registers an instruction may write (spec/10_state.md R20, R21): its destination, and VF for the six
flag writers. -/
def writesV (i : Instr) (k : Reg) : Bool :=
  match i with
  | .ldVxNn x _ | .addVxNn x _ | .ldVxVy x _ | .or x _ | .and x _ | .xor x _ | .rnd x _ | .ldVxDt x
  | .ldVxK x => k == x
  | .addVxVy x _ | .sub x _ | .shr x | .subn x _ | .shl x => k == x || k == vF
  | .drw _ _ _ => k == vF
  | .ldVxMem x => k ≤ x
  | .cls | .ret | .jp _ | .call _ | .seVxNn _ _ | .sneVxNn _ _ | .seVxVy _ _ | .sneVxVy _ _ | .ldINnn _
  | .jpV0 _ | .skp _ | .sknp _ | .ldDtVx _ | .ldStVx _ | .addIVx _ | .ldFVx _ | .ldBVx _ | .ldMemVx _ => false

end Sys2Proof.Machine
end

