-- ==== Sys2Proof/Certificates/Slice0/Obligations.lean ====
section
/-! DEFINITION. Obligations.lean: the statements for the provers, in the order of OBLIGATIONS.json. Docstrings name the rules of spec/ they formalise. -/

open Sys2Proof Sys2Proof.Machine

/-! ### Encoding -/

/-- spec/30_encoding.md R92, R102, R103: no bit of an encoding is dropped. -/
def Obligations.EncodeThenDecodeReturnsTheInstruction : Prop :=
  ∀ i : Instr, i.wf = true → decode (encode i) = .ok i

/-- spec/30_encoding.md R92, R100, R103: each word has one meaning, and the instruction decoded from it is
well formed and encodes to the same word, an ignored field read as 0. -/
def Obligations.DecodedWordEncodesBackUpToIgnoredBits : Prop :=
  ∀ (w : Word) (i : Instr), decode w = .ok i → i.wf = true ∧ encode i = w &&& i.readBits

/-- spec/30_encoding.md R94, R102, R103: a word decodes exactly when some row of the map selects it, and then
to an instruction of a row that selects it. -/
def Obligations.DecodingFollowsTheOpcodeMap : Prop :=
  ∀ w : Word,
    ((∃ i, decode w = .ok i) ↔ ∃ r ∈ opcodeMap, w &&& r.mask = r.pattern) ∧
      ∀ i, decode w = .ok i → w &&& i.row.mask = i.row.pattern

/-- spec/30_encoding.md R96 to R99, R101 (decisions D14, D15, D16 of the spec): the unknown space, by field
values. -/
def Obligations.UnknownSpaceIsExactlyTheListedWords : Prop :=
  ∀ w : Word,
    decode w = .error (.unknownOpcode w) ↔
      (w.toNat / 4096 = 0x0 ∧ w.toNat ≠ 0x00E0 ∧ w.toNat ≠ 0x00EE) ∨
        (w.toNat / 4096 = 0x8 ∧ 0x8 ≤ w.toNat % 16 ∧ w.toNat % 16 ≠ 0xE) ∨
          (w.toNat / 4096 = 0xE ∧ w.toNat % 256 ∉ [0x9E, 0xA1]) ∨
            (w.toNat / 4096 = 0xF ∧
              w.toNat % 256 ∉ [0x07, 0x0A, 0x15, 0x18, 0x1E, 0x29, 0x33, 0x55, 0x65])

/-- spec/30_encoding.md R103: "No two rows overlap." -/
def Obligations.NoTwoRowsOverlap : Prop :=
  opcodeMap.length = 34 ∧
    opcodeMap.Pairwise fun r q => ∀ w : Word, ¬(w &&& r.mask = r.pattern ∧ w &&& q.mask = q.pattern)

/-- spec/95_test_vectors.md, section 2.1: words of every family and every format, written out. -/
def Obligations.WordsOfTheSpecDecode : Prop :=
  decode 0x00E0 = .ok .cls ∧ decode 0x00EE = .ok .ret ∧ decode 0x1ABC = .ok (.jp 0xABC) ∧
    decode 0x2F00 = .ok (.call 0xF00) ∧ decode 0x3A55 = .ok (.seVxNn 10 0x55) ∧
      decode 0x4A55 = .ok (.sneVxNn 10 0x55) ∧ decode 0x5127 = .ok (.seVxVy 1 2) ∧
        decode 0x600A = .ok (.ldVxNn 0 0x0A) ∧ decode 0x7F01 = .ok (.addVxNn 15 1) ∧
          decode 0x8AB4 = .ok (.addVxVy 10 11) ∧ decode 0x8ABE = .ok (.shl 10) ∧
            decode 0x912F = .ok (.sneVxVy 1 2) ∧ decode 0xA210 = .ok (.ldINnn 0x210) ∧
              decode 0xB300 = .ok (.jpV0 0x300) ∧ decode 0xC30F = .ok (.rnd 3 0x0F) ∧
                decode 0xD125 = .ok (.drw 1 2 5) ∧ decode 0xE49E = .ok (.skp 4) ∧
                  decode 0xE4A1 = .ok (.sknp 4) ∧ decode 0xF355 = .ok (.ldMemVx 3) ∧
                    decode 0x0000 = .error (.unknownOpcode 0x0000) ∧
                      decode 0x8AB8 = .error (.unknownOpcode 0x8AB8) ∧
                        decode 0xE09F = .error (.unknownOpcode 0xE09F) ∧
                          decode 0xFFFF = .error (.unknownOpcode 0xFFFF)

/-! ### Reset -/

/-- spec/70_reset_and_hazards.md R300, spec/10_state.md R39, spec/20_memory.md R62, spec/00_scope.md R6: reset of a
machine with any `FONT`; with the value the spec supplies the font bytes are the customary ones (its general knowledge,
log 2). That keys and flags reset to 0 is the spec's decision D27; the draws go on, log 4. -/
def Obligations.ResetLeavesTheStatedValues : Prop :=
  State.reset.resetCore = State.reset ∧
    (∀ s : State,
      s.resetCore =
          { v := Vector.replicate 16 0, i := 0, pc := 0x200, stack := Vector.replicate 16 0, sp := 0, dt := 0,
            st := 0, mem := s.resetCore.mem, fb := s.resetCore.fb, key := 0, redraw := false,
            tonePending := false, mode := .running, status := .ok, draws := s.draws, font := s.font } ∧
        (∀ k, s.resetCore.fb.cell k = false) ∧ (∀ a, 80 ≤ a → s.resetCore.byteAt a = 0) ∧
          ∀ (d : Fin 16) (row : Fin 5), s.resetCore.byteAt (5 * d.val + row.val) = s.font[d][row]) ∧
      (∀ font : Font, State.resetWith font = { State.reset with font := font }) ∧
        State.reset.bytesAt 0 80 =
            [0xF0, 0x90, 0x90, 0x90, 0xF0, 0x20, 0x60, 0x20, 0x20, 0x70] ++
              [0xF0, 0x10, 0xF0, 0x80, 0xF0, 0xF0, 0x10, 0xF0, 0x10, 0xF0] ++
              [0x90, 0x90, 0xF0, 0x10, 0x10, 0xF0, 0x80, 0xF0, 0x10, 0xF0] ++
              [0xF0, 0x80, 0xF0, 0x90, 0xF0, 0xF0, 0x10, 0x20, 0x40, 0x40] ++
              [0xF0, 0x90, 0xF0, 0x90, 0xF0, 0xF0, 0x90, 0xF0, 0x10, 0xF0] ++
              [0xF0, 0x90, 0xF0, 0x90, 0x90, 0xE0, 0x90, 0xE0, 0x90, 0xE0] ++
              [0xF0, 0x80, 0x80, 0x80, 0xF0, 0xE0, 0x90, 0x90, 0x90, 0xE0] ++
              [0xF0, 0x80, 0xF0, 0x80, 0xF0, 0xF0, 0x80, 0xF0, 0x80, 0x80]

/-! ### The step cycle -/

/-- spec/40_step_cycle.md R120, R122, R123, R131 (the place of the tick is the spec's decision D11): a step runs
the decoded instruction and then ticks, unless the instruction waits or faults (`Status.ticks`). -/
def Obligations.StepRunsTheDecodedInstruction : Prop :=
  ∀ (s : State) (i : Instr),
    (s.mode = .running ∨ s.mode = .awaitingKey) → s.pc.toNat + 1 < 4096 →
      decode (s.byteAt s.pc.toNat ++ s.byteAt (s.pc.toNat + 1)) = .ok i →
        step s =
          match exec i s with
          | .next t => .next (if t.status.ticks then t.timerTick else t)
          | .fault c => .fault c
          | .refused r => .refused r

/-- spec/40_step_cycle.md R127, spec/60_exceptions.md R261 (PC + 2 is the spec's decision D10). -/
def Obligations.UnknownWordIsAReportedNoOp : Prop :=
  ∀ (s : State) (op : Word),
    (s.mode = .running ∨ s.mode = .awaitingKey) → s.pc.toNat + 1 < 4096 →
      op = s.byteAt s.pc.toNat ++ s.byteAt (s.pc.toNat + 1) → (∀ i, decode op ≠ .ok i) →
        step s =
          .next ({ s with pc := s.pc + 2, mode := .running, status := .unknownOpcode op } : State).timerTick

/-- spec/40_step_cycle.md R122, spec/60_exceptions.md R264 (the fault is the spec's decision D5). -/
def Obligations.FetchOutsideMemoryHalts : Prop :=
  ∀ s : State,
    (s.mode = .running ∨ s.mode = .awaitingKey) → 4096 ≤ s.pc.toNat + 1 →
      let c := Fault.memoryOutOfRange (if 4096 ≤ s.pc.toNat then s.pc.toNat else s.pc.toNat + 1)
      step s = .next { s with mode := .halted c, status := .fault c }

/-- spec/40_step_cycle.md R121, spec/60_exceptions.md R270 (the spec's decision D4): a fault is sticky. -/
def Obligations.HaltedStepChangesNothing : Prop :=
  ∀ (s : State) (c : Fault),
    s.mode = .halted c →
      step s = .next { s with status := .fault c } ∧ (s.status = .fault c → step s = .next s)

/-- spec/40_step_cycle.md R130: what one tick does, and that it does nothing else. -/
def Obligations.TickCountsTheTimersDown : Prop :=
  ∀ s : State,
    s.timerTick =
        { s with dt := s.timerTick.dt, st := s.timerTick.st, tonePending := s.timerTick.tonePending } ∧
      s.timerTick.dt.toNat = s.dt.toNat - 1 ∧
        s.timerTick.st.toNat = s.st.toNat - 1 ∧
          (s.timerTick.tonePending = true ↔ s.tonePending = true ∨ s.st.toNat = 1)

/-- spec/40_step_cycle.md R131, spec/45_keys_timers.md R244, R245: a step that completes an instruction or meets
an unknown word counts both timers down once, from the value the instruction wrote if it wrote one. -/
def Obligations.CompletingStepTicksOnce : Prop :=
  ∀ s t : State,
    step s = .next t → (t.status = .ok ∨ ∃ op, t.status = .unknownOpcode op) →
      let ins := decode (s.byteAt s.pc.toNat ++ s.byteAt (s.pc.toNat + 1))
      (∀ x, ins = .ok (.ldDtVx x) → t.dt.toNat = (s.getV x).toNat - 1) ∧
        ((∀ x, ins ≠ .ok (.ldDtVx x)) → t.dt.toNat = s.dt.toNat - 1) ∧
          (∀ x, ins = .ok (.ldStVx x) →
            t.st.toNat = (s.getV x).toNat - 1 ∧
              (t.tonePending = true ↔ s.tonePending = true ∨ (s.getV x).toNat = 1)) ∧
            ((∀ x, ins ≠ .ok (.ldStVx x)) →
              t.st.toNat = s.st.toNat - 1 ∧ (t.tonePending = true ↔ s.tonePending = true ∨ s.st.toNat = 1))

/-- spec/40_step_cycle.md R128, R129, R131, spec/60_exceptions.md R269 (no tick on a fault is the spec's
decision D12, on a wait its C1): a waiting or faulting step leaves all but mode and status as it was. -/
def Obligations.WaitingOrFaultingStepChangesOnlyModeAndStatus : Prop :=
  ∀ s t : State,
    step s = .next t → (t.status = .waitingForKey ∨ ∃ c, t.status = .fault c) →
      t = { s with mode := t.mode, status := t.status }

/-- spec/40_step_cycle.md R120, R132, R134 (PC + 2 after an unknown word is the spec's decision D10): every step,
from every state, answers a next state, in one of the listed exits. -/
def Obligations.EveryStepAnswersOneOfTheListedExits : Prop :=
  ∀ s : State,
    ∃ t, step s = .next t ∧
      ((t.status = .ok ∧ t.mode = .running) ∨
        (∃ op, t.status = .unknownOpcode op ∧ t.mode = .running ∧ t.pc = s.pc + 2) ∨
          (t.status = .waitingForKey ∧ t.mode = .awaitingKey ∧ t.pc = s.pc) ∨
            ∃ c, t.status = .fault c ∧ t.mode = .halted c ∧ t.pc = s.pc)

/-- spec/10_state.md R34, R35 (the three modes are the spec's decision D3): a step does the same in `Running` and
`AwaitingKey`, and no step reads the last status, whatever it was on either side. -/
def Obligations.StepIgnoresWaitingAndTheLastStatus : Prop :=
  ∀ (s : State) (e e' : Status),
    step { s with mode := .awaitingKey, status := e } = step { s with mode := .running, status := e' }

/-! ### Invariants -/

/-- spec/20_memory.md R60, spec/10_state.md R23, R25, R34, spec/40_step_cycle.md R132: memory stays in canonical
form, PC at most 0x10FE, every stack entry at most 0x1000, mode and status in agreement, and a recorded fault
explained by the state (the bounds are the spec's derivations; that a fault halts is its decision D4). -/
def Obligations.EveryStepKeepsTheInvariant : Prop :=
  ∀ s t : State, s.Inv → step s = .next t → t.Inv

/-- spec/70_reset_and_hazards.md R300: the invariant holds after reset. -/
def Obligations.ResetMeetsTheInvariant : Prop :=
  State.reset.Inv ∧ (∀ font : Font, (State.resetWith font).Inv) ∧ ∀ s : State, s.resetCore.Inv

/-- spec/70_reset_and_hazards.md R302 to R306: no host operation breaks the invariant. -/
def Obligations.HostOperationsKeepTheInvariant : Prop :=
  ∀ (s : State) (op : DriverOp), s.Inv → (s.driver op).2.Inv

/-! ### Frames, over all instructions -/

/-- spec/10_state.md R20, R21: an instruction changes no V register but its destination, and VF for the six flag
writers. -/
def Obligations.OnlyDestinationRegistersChange : Prop :=
  ∀ (i : Instr) (s t : State) (k : Reg),
    exec i s = .next t → writesV i k = false → t.getV k = s.getV k

/-- spec/20_memory.md R60, R69: only store-bcd and register-dump change memory, and only the bytes they store. -/
def Obligations.OnlyStoresChangeMemory : Prop :=
  ∀ (i : Instr) (s t : State),
    exec i s = .next t →
      ((∀ x, i ≠ .ldBVx x) → (∀ x, i ≠ .ldMemVx x) → t.mem = s.mem) ∧
        (∀ x, i = .ldBVx x → ∀ a, a < s.i.toNat ∨ s.i.toNat + 2 < a → t.byteAt a = s.byteAt a) ∧
          ∀ x, i = .ldMemVx x → ∀ a, a < s.i.toNat ∨ s.i.toNat + x.val < a → t.byteAt a = s.byteAt a

/-- spec/10_state.md R30, R32: only clear-screen and draw-sprite change the framebuffer or the redraw flag. -/
def Obligations.OnlyDisplayInstructionsChangeTheScreen : Prop :=
  ∀ (i : Instr) (s t : State),
    exec i s = .next t → i ≠ .cls → (∀ x y n, i ≠ .drw x y n) → t.fb = s.fb ∧ t.redraw = s.redraw

/-- spec/10_state.md R25, R26 (that a return leaves the entry is the spec's decision D25): only call writes a stack
entry, only call and return move SP. -/
def Obligations.OnlyCallAndReturnTouchTheStack : Prop :=
  ∀ (i : Instr) (s t : State),
    exec i s = .next t → (∀ nnn, i ≠ .call nnn) → t.stack = s.stack ∧ (i ≠ .ret → t.sp = s.sp)

/-- spec/10_state.md R37 (columns "written by"), R31, R33: I, the timers, the keys and the tone flag; the model's
count of draws (log 3). -/
def Obligations.SpecialRegistersChangeOnlyByTheirInstructions : Prop :=
  ∀ (i : Instr) (s t : State),
    exec i s = .next t →
      t.key = s.key ∧ t.tonePending = s.tonePending ∧
        ((∀ nnn, i ≠ .ldINnn nnn) → (∀ x, i ≠ .addIVx x) → (∀ x, i ≠ .ldFVx x) → t.i = s.i) ∧
          ((∀ x, i ≠ .ldDtVx x) → t.dt = s.dt) ∧ ((∀ x, i ≠ .ldStVx x) → t.st = s.st) ∧
            ((∀ x nn, i ≠ .rnd x nn) → t.draws = s.draws)

/-- spec/10_state.md R31, R32, R33: over whole steps, the keys are read only, and a raised redraw or tone flag
stays up until the host takes it. -/
def Obligations.StepKeepsKeysAndNeverClearsHostFlags : Prop :=
  ∀ s t : State,
    step s = .next t →
      t.key = s.key ∧ (s.redraw = true → t.redraw = true) ∧ (s.tonePending = true → t.tonePending = true)

/-- spec/00_scope.md R6, spec/20_memory.md R62: `FONT` is a parameter of the machine. No instruction, no step and no
host operation, reset among them, changes the model's field that holds it (log 2). -/
def Obligations.NothingChangesTheFontParameter : Prop :=
  ∀ s t : State,
    ((∀ i, exec i s = .next t → t.font = s.font) ∧ (step s = .next t → t.font = s.font)) ∧
      ∀ op : DriverOp, (s.driver op).2.font = s.font

/-! ### Control transfer -/

/-- spec/41_control_transfer.md R151. -/
def Obligations.JumpSetsThePc : Prop :=
  ∀ nnn : Addr,
    decode (BitVec.ofNat 16 (0x1000 + nnn.toNat)) = .ok (.jp nnn) ∧
      ∀ s : State,
        exec (.jp nnn) s = .next { s with pc := BitVec.ofNat 16 nnn.toNat, mode := .running, status := .ok }

/-- spec/41_control_transfer.md R157. -/
def Obligations.JumpWithOffsetAddsV0 : Prop :=
  ∀ nnn : Addr,
    decode (BitVec.ofNat 16 (0xB000 + nnn.toNat)) = .ok (.jpV0 nnn) ∧
      ∀ s : State,
        ∃ t, exec (.jpV0 nnn) s = .next t ∧ t = { s with pc := t.pc, mode := .running, status := .ok } ∧
          t.pc.toNat = nnn.toNat + (s.getV 0).toNat

/-- spec/41_control_transfer.md R152 (the pushed address is settled by decision D25). -/
def Obligations.CallPushesTheNextAddress : Prop :=
  ∀ (nnn : Addr) (s : State) (h : s.sp.val < 16),
    exec (.call nnn) s =
      .next
        { s with
          stack := s.stack.set s.sp.val (s.pc + 2) h
          sp := ⟨s.sp.val + 1, Nat.succ_lt_succ h⟩
          pc := BitVec.ofNat 16 nnn.toNat
          mode := .running
          status := .ok }

/-- spec/41_control_transfer.md R150 (that the popped entry keeps its value is decision D25). -/
def Obligations.ReturnPopsTheAddress : Prop :=
  ∀ (s : State) (k : Fin 16),
    s.sp.val = k.val + 1 →
      exec .ret s = .next { s with pc := s.stack[k], sp := k.castSucc, mode := .running, status := .ok }

/-- spec/60_exceptions.md R262, R263 (that a fault halts the core is the spec's decision D4): call with a full stack
and return with an empty one halt the core, and nothing else changes. -/
def Obligations.StackFaultsHalt : Prop :=
  (∀ (nnn : Addr) (s : State), s.sp.val = 16 →
    exec (.call nnn) s = .next { s with mode := .halted .stackOverflow, status := .fault .stackOverflow }) ∧
    ∀ s : State, s.sp.val = 0 →
      exec .ret s = .next { s with mode := .halted .stackUnderflow, status := .fault .stackUnderflow }

/-- spec/41_control_transfer.md R150, R152: a return right after a call goes to the instruction after the call and
leaves SP as it was before it. -/
def Obligations.ReturnUndoesCall : Prop :=
  ∀ (nnn : Addr) (s t : State),
    s.sp.val < 16 → exec (.call nnn) s = .next t →
      exec .ret t = .next { t with pc := s.pc + 2, sp := s.sp }

/-- spec/41_control_transfer.md R153, R154. -/
def Obligations.ImmediateSkipsCompareUnsigned : Prop :=
  ∀ (x : Reg) (nn : Byte),
    decode (BitVec.ofNat 16 (0x3000 + x.val * 256 + nn.toNat)) = .ok (.seVxNn x nn) ∧
      decode (BitVec.ofNat 16 (0x4000 + x.val * 256 + nn.toNat)) = .ok (.sneVxNn x nn) ∧
        ∀ s : State,
          exec (.seVxNn x nn) s =
              .next { s with
                pc := s.pc + (if (s.getV x).toNat = nn.toNat then 4 else 2), mode := .running, status := .ok } ∧
            exec (.sneVxNn x nn) s =
              .next { s with
                pc := s.pc + (if (s.getV x).toNat = nn.toNat then 2 else 4), mode := .running, status := .ok }

/-- spec/41_control_transfer.md R155, R156, whatever the ignored low nibble is. -/
def Obligations.RegisterSkipsCompareAsNamed : Prop :=
  ∀ (x y : Reg) (n : Fin 16),
    decode (BitVec.ofNat 16 (0x5000 + x.val * 256 + y.val * 16 + n.val)) = .ok (.seVxVy x y) ∧
      decode (BitVec.ofNat 16 (0x9000 + x.val * 256 + y.val * 16 + n.val)) = .ok (.sneVxVy x y) ∧
        ∀ s : State,
          exec (.seVxVy x y) s =
              .next { s with
                pc := s.pc + (if (s.getV x).toNat = (s.getV y).toNat then 4 else 2), mode := .running,
                status := .ok } ∧
            exec (.sneVxVy x y) s =
              .next { s with
                pc := s.pc + (if (s.getV x).toNat = (s.getV y).toNat then 2 else 4), mode := .running,
                status := .ok }

/-! ### Register arithmetic and logic -/

/-- spec/42_alu.md R170, R172. -/
def Obligations.LoadImmediateAndMoveCopy : Prop :=
  ∀ (x y : Reg) (nn : Byte),
    decode (BitVec.ofNat 16 (0x6000 + x.val * 256 + nn.toNat)) = .ok (.ldVxNn x nn) ∧
      decode (BitVec.ofNat 16 (0x8000 + x.val * 256 + y.val * 16)) = .ok (.ldVxVy x y) ∧
        ∀ s : State,
          exec (.ldVxNn x nn) s =
              .next { s with v := s.v.set x.val nn x.isLt, pc := s.pc + 2, mode := .running, status := .ok } ∧
            exec (.ldVxVy x y) s =
              .next { s with v := s.v.set x.val s.v[y] x.isLt, pc := s.pc + 2, mode := .running, status := .ok }

/-- spec/42_alu.md R171. -/
def Obligations.AddImmediateWrapsWithoutAFlag : Prop :=
  ∀ (x : Reg) (nn : Byte),
    decode (BitVec.ofNat 16 (0x7000 + x.val * 256 + nn.toNat)) = .ok (.addVxNn x nn) ∧
      ∀ s : State,
        ∃ r : Byte, r.toNat = ((s.getV x).toNat + nn.toNat) % 256 ∧
          exec (.addVxNn x nn) s =
            .next { s with v := s.v.set x.val r x.isLt, pc := s.pc + 2, mode := .running, status := .ok }

/-- spec/42_alu.md R173, R174, R175, bit by bit. -/
def Obligations.LogicCombinesBitsWithoutAFlag : Prop :=
  ∀ x y : Reg,
    decode (BitVec.ofNat 16 (0x8001 + x.val * 256 + y.val * 16)) = .ok (.or x y) ∧
      decode (BitVec.ofNat 16 (0x8002 + x.val * 256 + y.val * 16)) = .ok (.and x y) ∧
        decode (BitVec.ofNat 16 (0x8003 + x.val * 256 + y.val * 16)) = .ok (.xor x y) ∧
          ∀ s : State,
            ∃ o a e : Byte,
              (∀ k, o.getLsbD k = ((s.getV x).getLsbD k || (s.getV y).getLsbD k)) ∧
                (∀ k, a.getLsbD k = ((s.getV x).getLsbD k && (s.getV y).getLsbD k)) ∧
                  (∀ k, e.getLsbD k = ((s.getV x).getLsbD k != (s.getV y).getLsbD k)) ∧
                    exec (.or x y) s =
                        .next { s with
                          v := s.v.set x.val o x.isLt, pc := s.pc + 2, mode := .running, status := .ok } ∧
                      exec (.and x y) s =
                          .next { s with
                            v := s.v.set x.val a x.isLt, pc := s.pc + 2, mode := .running, status := .ok } ∧
                        exec (.xor x y) s =
                          .next { s with
                            v := s.v.set x.val e x.isLt, pc := s.pc + 2, mode := .running, status := .ok }

/-- spec/42_alu.md R176; for `x = 15` the order of the two writes is R183, the spec's decision D13. -/
def Obligations.AddRegistersSetsTheCarry : Prop :=
  ∀ x y : Reg,
    decode (BitVec.ofNat 16 (0x8004 + x.val * 256 + y.val * 16)) = .ok (.addVxVy x y) ∧
      ∀ s : State,
        let sum := (s.getV x).toNat + (s.getV y).toNat
        ∃ flag r : Byte, flag.toNat = (if 255 < sum then 1 else 0) ∧ r.toNat = sum % 256 ∧
          exec (.addVxVy x y) s =
            .next { s with
              v := (s.v.set 15 flag).set x.val r x.isLt, pc := s.pc + 2, mode := .running, status := .ok }

/-- spec/42_alu.md R177, R179: VF is 1 when there is no borrow; the difference is taken modulo 256 (for `x = 15`
R183, the spec's decision D13). -/
def Obligations.SubtractionsSetTheNoBorrowFlag : Prop :=
  ∀ x y : Reg,
    decode (BitVec.ofNat 16 (0x8005 + x.val * 256 + y.val * 16)) = .ok (.sub x y) ∧
      decode (BitVec.ofNat 16 (0x8007 + x.val * 256 + y.val * 16)) = .ok (.subn x y) ∧
        ∀ s : State,
          let a := (s.getV x).toNat
          let b := (s.getV y).toNat
          (∃ flag r : Byte, flag.toNat = (if b ≤ a then 1 else 0) ∧ r.toNat = (256 + a - b) % 256 ∧
              exec (.sub x y) s =
                .next { s with
                  v := (s.v.set 15 flag).set x.val r x.isLt, pc := s.pc + 2, mode := .running, status := .ok }) ∧
            ∃ flag r : Byte, flag.toNat = (if a ≤ b then 1 else 0) ∧ r.toNat = (256 + b - a) % 256 ∧
              exec (.subn x y) s =
                .next { s with
                  v := (s.v.set 15 flag).set x.val r x.isLt, pc := s.pc + 2, mode := .running, status := .ok }

/-- spec/42_alu.md R178, whatever the ignored `y` is (for `x = 15` R183, the spec's decision D13). -/
def Obligations.ShiftRightMovesTheLowBitToVF : Prop :=
  ∀ x y : Reg,
    decode (BitVec.ofNat 16 (0x8006 + x.val * 256 + y.val * 16)) = .ok (.shr x) ∧
      ∀ s : State,
        ∃ flag r : Byte, flag.toNat = (s.getV x).toNat % 2 ∧ r.toNat = (s.getV x).toNat / 2 ∧
          exec (.shr x) s =
            .next { s with
              v := (s.v.set 15 flag).set x.val r x.isLt, pc := s.pc + 2, mode := .running, status := .ok }

/-- spec/42_alu.md R180, whatever the ignored `y` is (that bit 7 is not rotated is the spec's derivation;
for `x = 15` R183, its decision D13). -/
def Obligations.ShiftLeftMovesTheHighBitToVF : Prop :=
  ∀ x y : Reg,
    decode (BitVec.ofNat 16 (0x800E + x.val * 256 + y.val * 16)) = .ok (.shl x) ∧
      ∀ s : State,
        ∃ flag r : Byte, flag.toNat = (s.getV x).toNat / 128 ∧ r.toNat = (s.getV x).toNat * 2 % 256 ∧
          exec (.shl x) s =
            .next { s with
              v := (s.v.set 15 flag).set x.val r x.isLt, pc := s.pc + 2, mode := .running, status := .ok }

/-- spec/42_alu.md R183 (the spec's decision D13): with VF as destination the result stands, the flag is lost. -/
def Obligations.ResultStandsWhenVFIsTheDestination : Prop :=
  ∀ (y : Reg) (s t : State),
    let f := (s.getV 15).toNat
    let b := (s.getV y).toNat
    (exec (.addVxVy 15 y) s = .next t → (t.getV 15).toNat = (f + b) % 256) ∧
      (exec (.sub 15 y) s = .next t → (t.getV 15).toNat = (256 + f - b) % 256) ∧
        (exec (.shr 15) s = .next t → (t.getV 15).toNat = f / 2) ∧
          (exec (.subn 15 y) s = .next t → (t.getV 15).toNat = (256 + b - f) % 256) ∧
            (exec (.shl 15) s = .next t → (t.getV 15).toNat = f * 2 % 256)

/-- spec/42_alu.md R181 (that `rnd` is a draw under no law is the spec's decision D24): the byte drawn is a free
value, log 3; the result holds none of the bits that `nn` lacks, and each draw uses the next index. -/
def Obligations.RandomAndMasksADraw : Prop :=
  ∀ (x : Reg) (nn : Byte) (s : State),
    exec (.rnd x nn) s =
        .next { s with
          v := s.v.set x.val (Config.rndDraw s.draws &&& nn) x.isLt, draws := s.draws + 1, pc := s.pc + 2,
          mode := .running, status := .ok } ∧
      ∀ t, exec (.rnd x nn) s = .next t → ∀ k, nn.getLsbD k = false → (t.getV x).getLsbD k = false

/-! ### Index register and memory -/

/-- spec/43_index_memory.md R200. -/
def Obligations.SetIndexLoadsTheAddress : Prop :=
  ∀ nnn : Addr,
    decode (BitVec.ofNat 16 (0xA000 + nnn.toNat)) = .ok (.ldINnn nnn) ∧
      ∀ s : State,
        exec (.ldINnn nnn) s =
          .next { s with i := BitVec.ofNat 16 nnn.toNat, pc := s.pc + 2, mode := .running, status := .ok }

/-- spec/43_index_memory.md R201, R202 (no masking of Vx is the spec's decision D26). -/
def Obligations.IndexAddAndFontArithmetic : Prop :=
  ∀ (x : Reg) (s : State),
    (∃ r : Word, r.toNat = (s.i.toNat + (s.getV x).toNat) % 65536 ∧
        exec (.addIVx x) s = .next { s with i := r, pc := s.pc + 2, mode := .running, status := .ok }) ∧
      ∃ r : Word, r.toNat = (s.getV x).toNat * 5 ∧
        exec (.ldFVx x) s = .next { s with i := r, pc := s.pc + 2, mode := .running, status := .ok }

/-- spec/43_index_memory.md R203: three digits at I, I+1, I+2 and nothing else; the digits make up Vx again; a
range that leaves memory halts with nothing written (the spec's decisions D5, D7). -/
def Obligations.StoreBcdWritesThreeDigits : Prop :=
  ∀ x : Reg,
    decode (BitVec.ofNat 16 (0xF033 + x.val * 256)) = .ok (.ldBVx x) ∧
      ∀ s : State,
        (s.i.toNat + 2 < 4096 →
            ∃ t, exec (.ldBVx x) s = .next t ∧
              t = { s with mem := t.mem, pc := s.pc + 2, mode := .running, status := .ok } ∧
                (t.byteAt s.i.toNat).toNat = (s.getV x).toNat / 100 ∧
                  (t.byteAt (s.i.toNat + 1)).toNat = (s.getV x).toNat / 10 % 10 ∧
                    (t.byteAt (s.i.toNat + 2)).toNat = (s.getV x).toNat % 10 ∧
                      (t.byteAt s.i.toNat).toNat * 100 + (t.byteAt (s.i.toNat + 1)).toNat * 10 +
                          (t.byteAt (s.i.toNat + 2)).toNat = (s.getV x).toNat ∧
                        ∀ a, a < s.i.toNat ∨ s.i.toNat + 2 < a → t.byteAt a = s.byteAt a) ∧
          (4096 ≤ s.i.toNat + 2 →
            let c := Fault.memoryOutOfRange (max s.i.toNat 4096)
            exec (.ldBVx x) s = .next { s with mode := .halted c, status := .fault c })

/-- spec/43_index_memory.md R204: V0 to Vx at I on and nothing else; I unchanged; loading them back restores
them; a range that leaves memory halts with nothing written (the spec's decisions D5, D7). -/
def Obligations.RegisterDumpStoresTheRegisters : Prop :=
  ∀ x : Reg,
    decode (BitVec.ofNat 16 (0xF055 + x.val * 256)) = .ok (.ldMemVx x) ∧
      ∀ s : State,
        (s.i.toNat + x.val < 4096 →
            ∃ t, exec (.ldMemVx x) s = .next t ∧
              t = { s with mem := t.mem, pc := s.pc + 2, mode := .running, status := .ok } ∧
                (∀ k : Reg, k ≤ x → t.byteAt (s.i.toNat + k.val) = s.getV k) ∧
                  (∀ a, a < s.i.toNat ∨ s.i.toNat + x.val < a → t.byteAt a = s.byteAt a) ∧
                    ∀ v : Vector Byte 16,
                      ∃ u, exec (.ldVxMem x) { t with v := v } = .next u ∧ u.i = s.i ∧
                        ∀ k : Reg, k ≤ x → u.getV k = s.getV k) ∧
          (4096 ≤ s.i.toNat + x.val →
            let c := Fault.memoryOutOfRange (max s.i.toNat 4096)
            exec (.ldMemVx x) s = .next { s with mode := .halted c, status := .fault c })

/-- spec/43_index_memory.md R205: V0 to Vx from I on, the registers above Vx and I unchanged; a range that leaves
memory halts with no register written (the spec's decisions D5, D7). -/
def Obligations.RegisterLoadReadsTheRegisters : Prop :=
  ∀ x : Reg,
    decode (BitVec.ofNat 16 (0xF065 + x.val * 256)) = .ok (.ldVxMem x) ∧
      ∀ s : State,
        (s.i.toNat + x.val < 4096 →
            ∃ t, exec (.ldVxMem x) s = .next t ∧
              t = { s with v := t.v, pc := s.pc + 2, mode := .running, status := .ok } ∧
                ∀ k : Reg, t.getV k = if k ≤ x then s.byteAt (s.i.toNat + k.val) else s.getV k) ∧
          (4096 ≤ s.i.toNat + x.val →
            let c := Fault.memoryOutOfRange (max s.i.toNat 4096)
            exec (.ldVxMem x) s = .next { s with mode := .halted c, status := .fault c })

/-! ### Display -/

/-- spec/44_display.md R220. -/
def Obligations.ClearScreenClearsEveryCell : Prop :=
  decode 0x00E0 = .ok .cls ∧
    ∀ s : State,
      ∃ t, exec .cls s = .next t ∧ (∀ k, t.fb.cell k = false) ∧
        t = { s with fb := t.fb, redraw := true, pc := s.pc + 2, mode := .running, status := .ok }

/-- spec/44_display.md R221 to R225 (bit order, clipping, the 0 case of VF and the unconditional redraw are the
spec's decisions D18 to D21): exactly the hit cells are toggled; VF is 1 exactly when a hit cell was set. -/
def Obligations.DrawSpriteTogglesTheHitCells : Prop :=
  ∀ (x y : Reg) (n : Nat) (s : State),
    (n = 0 ∨ s.i.toNat + n - 1 < 4096) →
      let hit : Nat → Prop := fun k =>
        ∃ row col, row < n ∧ col < 8 ∧ (s.byteAt (s.i.toNat + row)).getLsbD (7 - col) = true ∧
          (s.getV y).toNat + row < 32 ∧
            k = ((s.getV y).toNat + row) * 64 + ((s.getV x).toNat + col) % 64
      ∃ (t : State) (flag : Byte), exec (.drw x y n) s = .next t ∧
        t = { s with
              fb := t.fb, v := s.v.set 15 flag, redraw := true, pc := s.pc + 2, mode := .running,
              status := .ok } ∧
          (∀ k, hit k → t.fb.cell k = !s.fb.cell k) ∧ (∀ k, ¬hit k → t.fb.cell k = s.fb.cell k) ∧
            ((∃ k, hit k ∧ s.fb.cell k = true) → flag = 1) ∧ ((¬∃ k, hit k ∧ s.fb.cell k = true) → flag = 0)

/-- spec/44_display.md R221 (the double draw), spec/95_test_vectors.md S5, spec/90_conflicts.md C6. -/
def Obligations.DrawingTwiceRestoresTheScreen : Prop :=
  ∀ (x y : Reg) (n : Nat) (s t u : State),
    x ≠ 15 → y ≠ 15 → exec (.drw x y n) s = .next t → exec (.drw x y n) t = .next u →
      (∀ k, u.fb.cell k = s.fb.cell k) ∧
        ((∃ k, s.fb.cell k = false ∧ t.fb.cell k = true) → u.getV 15 = 1)

/-- spec/44_display.md R221, spec/20_memory.md R66 (faults all or nothing, decision D7): a sprite that leaves
memory halts the core and draws nothing. -/
def Obligations.DrawOutsideMemoryHalts : Prop :=
  ∀ (x y : Reg) (n : Nat) (s : State),
    1 ≤ n → 4096 ≤ s.i.toNat + n - 1 →
      let c := Fault.memoryOutOfRange (max s.i.toNat 4096)
      exec (.drw x y n) s = .next { s with mode := .halted c, status := .fault c }

/-! ### Keys and timers -/

/-- spec/45_keys_timers.md R240, R241 (the fault of an index of 16 or more is the spec's decision D22). -/
def Obligations.KeySkipsReadTheNamedKey : Prop :=
  ∀ (x : Reg) (s : State),
    ((s.getV x).toNat < 16 →
        exec (.skp x) s =
            .next { s with
              pc := s.pc + (if s.key.getLsbD (s.getV x).toNat = true then 4 else 2), mode := .running,
              status := .ok } ∧
          exec (.sknp x) s =
            .next { s with
              pc := s.pc + (if s.key.getLsbD (s.getV x).toNat = true then 2 else 4), mode := .running,
              status := .ok }) ∧
      (16 ≤ (s.getV x).toNat →
        let c := Fault.keyIndexOutOfRange (s.getV x)
        exec (.skp x) s = .next { s with mode := .halted c, status := .fault c } ∧
          exec (.sknp x) s = .next { s with mode := .halted c, status := .fault c })

/-- spec/45_keys_timers.md R243, R246 (`KEY_PICK` is open, decision D23, log 5): with a key down the instruction
completes with the number of a key that is down, and with the only one if there is one. -/
def Obligations.WaitForKeyReportsAPressedKey : Prop :=
  ∀ (x j : Reg) (s : State),
    s.key.getLsbD j.val = true →
      ∃ k : Reg, s.key.getLsbD k.val = true ∧
        ((∀ m : Reg, s.key.getLsbD m.val = true → m = j) → k = j) ∧
          exec (.ldVxK x) s =
            .next { s with
              v := s.v.set x.val (BitVec.ofNat 8 k.val) x.isLt, pc := s.pc + 2, mode := .running, status := .ok }

/-- spec/40_step_cycle.md R128: a wait-for-key with no key down changes nothing but the mode, its step does not
tick, and nothing is remembered: whatever the keys are then, the next step is the one the instruction would have
taken first. -/
def Obligations.UnsatisfiedWaitChangesOnlyTheMode : Prop :=
  ∀ (x : Reg) (s : State),
    (∀ k : Reg, s.key.getLsbD k.val = false) →
      exec (.ldVxK x) s = .next { s with mode := .awaitingKey, status := .waitingForKey } ∧
        ((s.mode = .running ∨ s.mode = .awaitingKey) → s.pc.toNat + 1 < 4096 →
          decode (s.byteAt s.pc.toNat ++ s.byteAt (s.pc.toNat + 1)) = .ok (.ldVxK x) →
            ∃ t, step s = .next t ∧ t = { s with mode := .awaitingKey, status := .waitingForKey } ∧
              ∀ keys : BitVec 16, step { t with key := keys } = step { s with key := keys })

/-- spec/45_keys_timers.md R242, R244, R245 (that a step's tick follows its writes is the spec's decision D11): the
timer moves; after `k` ticks the timer set holds `Vx - k`, and the tone
is signalled by the tick that takes the sound timer from 1 to 0, the `Vx`th one. -/
def Obligations.TimerMovesAndTheirTicks : Prop :=
  ∀ x : Reg,
    decode (BitVec.ofNat 16 (0xF007 + x.val * 256)) = .ok (.ldVxDt x) ∧
      decode (BitVec.ofNat 16 (0xF015 + x.val * 256)) = .ok (.ldDtVx x) ∧
        decode (BitVec.ofNat 16 (0xF018 + x.val * 256)) = .ok (.ldStVx x) ∧
          ∀ s : State,
            let d : State := { s with dt := s.getV x, pc := s.pc + 2, mode := .running, status := .ok }
            let e : State := { s with st := s.getV x, pc := s.pc + 2, mode := .running, status := .ok }
            exec (.ldVxDt x) s =
                .next { s with v := s.v.set x.val s.dt x.isLt, pc := s.pc + 2, mode := .running, status := .ok } ∧
              exec (.ldDtVx x) s = .next d ∧ exec (.ldStVx x) s = .next e ∧
                ∀ k : Nat,
                  (State.timerTick^[k] d).dt.toNat = (s.getV x).toNat - k ∧
                    (State.timerTick^[k] e).st.toNat = (s.getV x).toNat - k ∧
                      ((State.timerTick^[k] e).tonePending = true ↔
                        s.tonePending = true ∨ 1 ≤ (s.getV x).toNat ∧ (s.getV x).toNat ≤ k)

/-! ### Memory and the host -/

/-- spec/20_memory.md R64, R70: a read returns the latest write to its address, and no write reaches another
address or another piece of state. -/
def Obligations.ReadReturnsTheLatestWrite : Prop :=
  ∀ (s : State) (a b : Nat) (bytes : List Byte),
    s.store a bytes = { s with mem := (s.store a bytes).mem } ∧
      (s.store a bytes).byteAt b = if h : a ≤ b ∧ b - a < bytes.length then bytes[b - a]'h.2 else s.byteAt b

/-- spec/60_exceptions.md R266: a program that is too long fails the load and nothing else, and a
later, shorter one loads. -/
def Obligations.ProgramTooLargeFailsTheLoad : Prop :=
  ∀ (s : State) (bytes : List Byte),
    3584 < bytes.length →
      s.loadProgram bytes = (.programTooLarge, s) ∧
        ∀ shorter : List Byte, shorter.length ≤ 3584 → ((s.loadProgram bytes).2.loadProgram shorter).1 = .ok

/-- spec/70_reset_and_hazards.md R302 (a load at any cycle boundary is the spec's decision D28): the bytes land from
0x200 on, other bytes and everything else stay. -/
def Obligations.LoadProgramCopiesTheBytes : Prop :=
  ∀ (s : State) (bytes : List Byte),
    bytes.length ≤ 3584 →
      ∃ t, s.loadProgram bytes = (.ok, t) ∧ t = { s with mem := t.mem } ∧
        (∀ k (h : k < bytes.length), t.byteAt (0x200 + k) = bytes[k]) ∧
          ∀ a, a < 0x200 ∨ 0x200 + bytes.length ≤ a → t.byteAt a = s.byteAt a

/-- spec/70_reset_and_hazards.md R303 to R306. -/
def Obligations.HostPortsReadAndWriteTheirFlags : Prop :=
  ∀ s : State,
    (∀ (k j : Reg) (pressed : Bool),
        s.setKey k pressed = { s with key := (s.setKey k pressed).key } ∧
          (s.setKey k pressed).key.getLsbD j.val = if j = k then pressed else s.key.getLsbD j.val) ∧
      s.consumeRedrawFlag = (s.redraw, { s with redraw := false }) ∧
        s.takeTone = (s.tonePending, { s with tonePending := false }) ∧
          s.framebuffer.length = 2048 ∧ (∀ k (h : k < s.framebuffer.length), s.framebuffer[k] = s.fb.cell k) ∧
            (s.driver .framebuffer).2 = s
end

