-- ==== Sys2Proof/Laws/Decode.lean ====
section
/-! SUPPORT. Laws/Decode.lean: an opcode and its fields as numbers, and the fields of a packed opcode. -/

namespace Sys2Proof

theorem append_toNat {m n : Nat} (a : BitVec m) (b : BitVec n) : (a ++ b).toNat = a.toNat * 2 ^ n + b.toNat := by
  rw [BitVec.toNat_append, ← Nat.shiftLeft_add_eq_or_of_lt b.isLt, Nat.shiftLeft_eq]

theorem regBits_toNat (r : Reg) : (regBits r).toNat = r.val := by
  have := r.isLt
  simp [regBits]

@[simp] theorem regOfBits_regBits (r : Reg) : regOfBits (regBits r) = r :=
  Fin.ext (regBits_toNat r)

@[simp] theorem regBits_regOfBits (b : BitVec 4) : regBits (regOfBits b) = b := by
  simp [regBits, regOfBits]

theorem packXyn_toNat (f : BitVec 4) (x y : Reg) (n : BitVec 4) :
    (packXyn f x y n).toNat = f.toNat * 4096 + x.val * 256 + y.val * 16 + n.toNat := by
  show ((f ++ regBits x) ++ regBits y ++ n).toNat = _
  rw [append_toNat, append_toNat, append_toNat, regBits_toNat, regBits_toNat]
  omega

theorem packXnn_toNat (f : BitVec 4) (x : Reg) (nn : Byte) :
    (packXnn f x nn).toNat = f.toNat * 4096 + x.val * 256 + nn.toNat := by
  show ((f ++ regBits x) ++ nn).toNat = _
  rw [append_toNat, append_toNat, regBits_toNat]
  omega

theorem packNnn_toNat (f : BitVec 4) (nnn : Addr) : (packNnn f nnn).toNat = f.toNat * 4096 + nnn.toNat := by
  show (f ++ nnn).toNat = _
  rw [append_toNat]
  norm_num

theorem famField_toNat (op : Word) : (famField op).toNat = op.toNat / 4096 := by
  have := op.isLt
  simp only [famField, BitVec.extractLsb'_toNat, Nat.shiftRight_eq_div_pow]
  omega

theorem xField_val (op : Word) : (xField op).val = op.toNat / 256 % 16 := by
  simp only [xField, regOfBits, BitVec.extractLsb'_toNat, Nat.shiftRight_eq_div_pow]

theorem yField_val (op : Word) : (yField op).val = op.toNat / 16 % 16 := by
  simp only [yField, regOfBits, BitVec.extractLsb'_toNat, Nat.shiftRight_eq_div_pow]

theorem nField_toNat (op : Word) : (nField op).toNat = op.toNat % 16 := by
  simp [nField, BitVec.extractLsb'_toNat]

theorem nnField_toNat (op : Word) : (nnField op).toNat = op.toNat % 256 := by
  simp [nnField, BitVec.extractLsb'_toNat]

theorem nnnField_toNat (op : Word) : (nnnField op).toNat = op.toNat % 4096 := by
  simp [nnnField, BitVec.extractLsb'_toNat]

@[simp] theorem famField_packXyn (f : BitVec 4) (x y : Reg) (n : BitVec 4) : famField (packXyn f x y n) = f := by
  apply BitVec.eq_of_toNat_eq
  rw [famField_toNat, packXyn_toNat]
  omega

@[simp] theorem xField_packXyn (f : BitVec 4) (x y : Reg) (n : BitVec 4) : xField (packXyn f x y n) = x := by
  apply Fin.ext
  rw [xField_val, packXyn_toNat]
  omega

@[simp] theorem yField_packXyn (f : BitVec 4) (x y : Reg) (n : BitVec 4) : yField (packXyn f x y n) = y := by
  apply Fin.ext
  rw [yField_val, packXyn_toNat]
  omega

@[simp] theorem nField_packXyn (f : BitVec 4) (x y : Reg) (n : BitVec 4) : nField (packXyn f x y n) = n := by
  apply BitVec.eq_of_toNat_eq
  rw [nField_toNat, packXyn_toNat]
  omega

@[simp] theorem famField_packXnn (f : BitVec 4) (x : Reg) (nn : Byte) : famField (packXnn f x nn) = f := by
  apply BitVec.eq_of_toNat_eq
  rw [famField_toNat, packXnn_toNat]
  omega

@[simp] theorem xField_packXnn (f : BitVec 4) (x : Reg) (nn : Byte) : xField (packXnn f x nn) = x := by
  apply Fin.ext
  rw [xField_val, packXnn_toNat]
  omega

@[simp] theorem nnField_packXnn (f : BitVec 4) (x : Reg) (nn : Byte) : nnField (packXnn f x nn) = nn := by
  apply BitVec.eq_of_toNat_eq
  rw [nnField_toNat, packXnn_toNat]
  omega

@[simp] theorem famField_packNnn (f : BitVec 4) (nnn : Addr) : famField (packNnn f nnn) = f := by
  apply BitVec.eq_of_toNat_eq
  rw [famField_toNat, packNnn_toNat]
  omega

@[simp] theorem nnnField_packNnn (f : BitVec 4) (nnn : Addr) : nnnField (packNnn f nnn) = nnn := by
  apply BitVec.eq_of_toNat_eq
  rw [nnnField_toNat, packNnn_toNat]
  omega

/-- A word is its fields packed in the XYN format. -/
theorem packXyn_fields (w : Word) : packXyn (famField w) (xField w) (yField w) (nField w) = w := by
  apply BitVec.eq_of_toNat_eq
  rw [packXyn_toNat, famField_toNat, xField_val, yField_val, nField_toNat]
  omega

/-- A word is its fields packed in the XNN format. -/
theorem packXnn_fields (w : Word) : packXnn (famField w) (xField w) (nnField w) = w := by
  apply BitVec.eq_of_toNat_eq
  rw [packXnn_toNat, famField_toNat, xField_val, nnField_toNat]
  omega

/-- A word is its fields packed in the NNN format. -/
theorem packNnn_fields (w : Word) : packNnn (famField w) (nnnField w) = w := by
  apply BitVec.eq_of_toNat_eq
  rw [packNnn_toNat, famField_toNat, nnnField_toNat]
  omega

/-- The two bytes of an opcode put together again are the opcode (spec/20_memory.md R67). -/
@[simp] theorem opcodeOfBytes_high_low (op : Word) : opcodeOfBytes (highByte op) (lowByte op) = op := by
  apply BitVec.eq_of_toNat_eq
  show (highByte op ++ lowByte op).toNat = _
  have := op.isLt
  rw [append_toNat]
  simp only [highByte, lowByte, BitVec.extractLsb'_toNat, Nat.shiftRight_eq_div_pow]
  omega

end Sys2Proof
end

