-- ==== Sys2Proof/Laws/Memory.lean ====
section
/-! SUPPORT. Laws/Memory.lean: reading after writing, for every list, and that every write keeps the canonical form. -/

namespace Sys2Proof.Machine

variable (font : Font)

@[simp] theorem Memory.read_nil (a : Nat) : Memory.read font [] a = initialByte font a := rfl

theorem Memory.read_place_same (m : Memory) (a : Nat) (v : Byte) (h : ∀ c ∈ m, c.1 ≠ a) :
    (Memory.place m a v).read font a = v := by
  induction m with
  | nil => simp [Memory.place, Memory.read]
  | cons c rest ih =>
    obtain ⟨b, w⟩ := c
    have hb : b ≠ a := h (b, w) (by simp)
    have hr := ih fun c hc => h c (by simp [hc])
    by_cases hlt : a < b
    · simp [Memory.place, hlt, Memory.read]
    · simp [Memory.place, hlt, Memory.read, hb.symm, hr]

theorem Memory.read_place_other (m : Memory) (a b : Nat) (v : Byte) (h : b ≠ a) :
    (Memory.place m a v).read font b = m.read font b := by
  induction m with
  | nil => simp [Memory.place, Memory.read, h]
  | cons c rest ih =>
    obtain ⟨d, w⟩ := c
    by_cases hlt : a < d
    · simp [Memory.place, hlt, Memory.read, h]
    · simp [Memory.place, hlt, Memory.read, ih]

theorem Memory.read_filter_same (m : Memory) (a : Nat) :
    Memory.read font (m.filter fun c => c.1 ≠ a) a = initialByte font a := by
  induction m with
  | nil => rfl
  | cons c rest ih =>
    obtain ⟨b, w⟩ := c
    by_cases hb : b = a
    · simpa [hb] using ih
    · simpa [hb, Memory.read, Ne.symm hb] using ih

theorem Memory.read_filter_other (m : Memory) (a b : Nat) (h : b ≠ a) :
    Memory.read font (m.filter fun c => c.1 ≠ a) b = m.read font b := by
  induction m with
  | nil => rfl
  | cons c rest ih =>
    obtain ⟨d, w⟩ := c
    by_cases hd : d = a
    · have : b ≠ d := by omega
      simpa [hd, Memory.read, h] using ih
    · by_cases hbd : b = d <;> simp_all [Memory.read]

/-- A byte just written reads as written (spec/20_memory.md R64, R70). -/
@[simp] theorem Memory.read_write_same (m : Memory) (a : Nat) (v : Byte) : (m.write font a v).read font a = v := by
  by_cases h : v = initialByte font a
  · simp only [Memory.write, h, if_true, Memory.read_filter_same]
  · simp only [Memory.write, h, if_false]
    exact Memory.read_place_same font _ a v (by simp)

/-- A write leaves every other byte alone. -/
theorem Memory.read_write_other (m : Memory) (a b : Nat) (v : Byte) (h : b ≠ a) :
    (m.write font a v).read font b = m.read font b := by
  by_cases hv : v = initialByte font a
  · simp only [Memory.write, hv, if_true, Memory.read_filter_other font m a b h]
  · simp only [Memory.write, hv, if_false, Memory.read_place_other font _ a b v h, Memory.read_filter_other font m a b h]

/-- Everything a block write does: the bytes it stores, and nothing outside them. -/
theorem Memory.read_writeBytes (m : Memory) (a b : Nat) (bytes : List Byte) :
    (m.writeBytes font a bytes).read font b =
      if a ≤ b ∧ b < a + bytes.length then bytes.getD (b - a) 0 else m.read font b := by
  induction bytes generalizing m a with
  | nil => simp [Memory.writeBytes]
  | cons v vs ih =>
    rw [Memory.writeBytes, ih]
    by_cases h1 : a + 1 ≤ b ∧ b < a + 1 + vs.length
    · have h2 : a ≤ b ∧ b < a + (v :: vs).length := by simp; omega
      have h3 : b - a = (b - (a + 1)) + 1 := by omega
      rw [if_pos h1, if_pos h2, h3, List.getD_cons_succ]
    · by_cases hb : b = a
      · subst hb; simp
      · have h2 : ¬ (a ≤ b ∧ b < a + (v :: vs).length) := by simp; omega
        rw [if_neg h1, if_neg h2, Memory.read_write_other font m a b v hb]

theorem Memory.length_readBytes (m : Memory) (a n : Nat) : (m.readBytes font a n).length = n := by
  simp [Memory.readBytes]

theorem Memory.getElem_readBytes (m : Memory) (a n k : Nat) (h : k < n) :
    (m.readBytes font a n)[k]'(by simpa [Memory.readBytes]) = m.read font (a + k) := by
  simp [Memory.readBytes]

theorem Memory.getD_readBytes (m : Memory) (a n k : Nat) (d : Byte) :
    (m.readBytes font a n).getD k d = if k < n then m.read font (a + k) else d := by
  by_cases h : k < n <;> simp [Memory.readBytes, h]

theorem Memory.mem_place (m : Memory) (a : Nat) (v : Byte) (c : Host.Cell) :
    c ∈ Memory.place m a v ↔ c = (a, v) ∨ c ∈ m := by
  induction m with
  | nil => simp [Memory.place]
  | cons d rest ih =>
    obtain ⟨b, w⟩ := d
    by_cases hlt : a < b
    · simp [Memory.place, hlt]
    · simp only [Memory.place, hlt, if_false, List.mem_cons, ih]
      tauto

theorem Memory.place_pairwise (m : Memory) (a : Nat) (v : Byte) (h : m.Pairwise (fun c d => c.1 < d.1))
    (hn : ∀ c ∈ m, c.1 ≠ a) : (Memory.place m a v).Pairwise (fun c d => c.1 < d.1) := by
  induction m with
  | nil => simp [Memory.place]
  | cons d rest ih =>
    obtain ⟨b, w⟩ := d
    obtain ⟨hd, hr⟩ := List.pairwise_cons.1 h
    have hb : b ≠ a := hn (b, w) (by simp)
    by_cases hlt : a < b
    · simp only [Memory.place, hlt, if_true]
      refine List.pairwise_cons.2 ⟨?_, h⟩
      rintro c (_ | ⟨_, hc⟩)
      · exact hlt
      · exact lt_trans hlt (hd c hc)
    · simp only [Memory.place, hlt, if_false]
      refine List.pairwise_cons.2 ⟨fun c hc => ?_, ih hr fun c hc => hn c (by simp [hc])⟩
      rcases (Memory.mem_place rest a v c).1 hc with rfl | hc
      · show b < a
        omega
      · exact hd c hc

/-- Reset memory is in canonical form. -/
theorem Memory.wf_nil : Memory.wf font [] := by simp [Memory.wf]

/-- A write inside memory keeps the canonical form. -/
theorem Memory.wf_write (m : Memory) (a : Nat) (v : Byte) (h : m.wf font) (ha : a < Config.memSize) :
    (m.write font a v).wf font := by
  obtain ⟨hp, hc⟩ := h
  have hf : (m.filter fun c => c.1 ≠ a).Pairwise (fun c d => c.1 < d.1) := hp.filter _
  have hm : ∀ c ∈ m.filter (fun c => c.1 ≠ a), c.1 < Config.memSize ∧ c.2 ≠ initialByte font c.1 :=
    fun c hcm => hc c (List.mem_filter.1 hcm).1
  have hne : ∀ c ∈ m.filter (fun c => c.1 ≠ a), c.1 ≠ a := by simp
  by_cases hv : v = initialByte font a
  · simp only [Memory.write, hv, if_true]
    exact ⟨hf, hm⟩
  · simp only [Memory.write, hv, if_false]
    refine ⟨Memory.place_pairwise _ a v hf hne, fun c hcm => ?_⟩
    rcases (Memory.mem_place _ a v c).1 hcm with rfl | hcm
    · exact ⟨ha, hv⟩
    · exact hm c hcm

/-- A block write inside memory keeps the canonical form. -/
theorem Memory.wf_writeBytes (m : Memory) (a : Nat) (bytes : List Byte) (h : m.wf font)
    (ha : a + bytes.length ≤ Config.memSize) : (m.writeBytes font a bytes).wf font := by
  induction bytes generalizing m a with
  | nil => exact h
  | cons v vs ih =>
    simp only [List.length_cons] at ha
    exact ih _ _ (Memory.wf_write font m a v h (by omega)) (by omega)

end Sys2Proof.Machine
end

