-- ==== Sys2Proof/Laws/State.lean ====
section
/-! SUPPORT. Laws/State.lean: what each named update does to each field of the state, so that no proof unfolds a record update. -/

namespace Sys2Proof.Machine

@[simp] theorem State.setV_v (s : State) (x : Reg) (b : Byte) : (s.setV x b).v = s.v.set x.val b x.isLt := rfl
@[simp] theorem State.setV_i (s : State) (x : Reg) (b : Byte) : (s.setV x b).i = s.i := rfl
@[simp] theorem State.setV_pc (s : State) (x : Reg) (b : Byte) : (s.setV x b).pc = s.pc := rfl
@[simp] theorem State.setV_stack (s : State) (x : Reg) (b : Byte) : (s.setV x b).stack = s.stack := rfl
@[simp] theorem State.setV_sp (s : State) (x : Reg) (b : Byte) : (s.setV x b).sp = s.sp := rfl
@[simp] theorem State.setV_dt (s : State) (x : Reg) (b : Byte) : (s.setV x b).dt = s.dt := rfl
@[simp] theorem State.setV_st (s : State) (x : Reg) (b : Byte) : (s.setV x b).st = s.st := rfl
@[simp] theorem State.setV_mem (s : State) (x : Reg) (b : Byte) : (s.setV x b).mem = s.mem := rfl
@[simp] theorem State.setV_fb (s : State) (x : Reg) (b : Byte) : (s.setV x b).fb = s.fb := rfl
@[simp] theorem State.setV_key (s : State) (x : Reg) (b : Byte) : (s.setV x b).key = s.key := rfl
@[simp] theorem State.setV_redraw (s : State) (x : Reg) (b : Byte) : (s.setV x b).redraw = s.redraw := rfl
@[simp] theorem State.setV_tonePending (s : State) (x : Reg) (b : Byte) : (s.setV x b).tonePending = s.tonePending := rfl
@[simp] theorem State.setV_mode (s : State) (x : Reg) (b : Byte) : (s.setV x b).mode = s.mode := rfl
@[simp] theorem State.setV_status (s : State) (x : Reg) (b : Byte) : (s.setV x b).status = s.status := rfl
@[simp] theorem State.setV_draws (s : State) (x : Reg) (b : Byte) : (s.setV x b).draws = s.draws := rfl
@[simp] theorem State.setV_font (s : State) (x : Reg) (b : Byte) : (s.setV x b).font = s.font := rfl

@[simp] theorem State.complete_v (s : State) (p : Word) : (s.complete p).v = s.v := rfl
@[simp] theorem State.complete_i (s : State) (p : Word) : (s.complete p).i = s.i := rfl
@[simp] theorem State.complete_pc (s : State) (p : Word) : (s.complete p).pc = p := rfl
@[simp] theorem State.complete_stack (s : State) (p : Word) : (s.complete p).stack = s.stack := rfl
@[simp] theorem State.complete_sp (s : State) (p : Word) : (s.complete p).sp = s.sp := rfl
@[simp] theorem State.complete_dt (s : State) (p : Word) : (s.complete p).dt = s.dt := rfl
@[simp] theorem State.complete_st (s : State) (p : Word) : (s.complete p).st = s.st := rfl
@[simp] theorem State.complete_mem (s : State) (p : Word) : (s.complete p).mem = s.mem := rfl
@[simp] theorem State.complete_fb (s : State) (p : Word) : (s.complete p).fb = s.fb := rfl
@[simp] theorem State.complete_key (s : State) (p : Word) : (s.complete p).key = s.key := rfl
@[simp] theorem State.complete_redraw (s : State) (p : Word) : (s.complete p).redraw = s.redraw := rfl
@[simp] theorem State.complete_tonePending (s : State) (p : Word) : (s.complete p).tonePending = s.tonePending := rfl
@[simp] theorem State.complete_mode (s : State) (p : Word) : (s.complete p).mode = .running := rfl
@[simp] theorem State.complete_status (s : State) (p : Word) : (s.complete p).status = .ok := rfl
@[simp] theorem State.complete_draws (s : State) (p : Word) : (s.complete p).draws = s.draws := rfl
@[simp] theorem State.complete_font (s : State) (p : Word) : (s.complete p).font = s.font := rfl

@[simp] theorem State.raise_v (s : State) (c : Fault) : (s.raise c).v = s.v := rfl
@[simp] theorem State.raise_i (s : State) (c : Fault) : (s.raise c).i = s.i := rfl
@[simp] theorem State.raise_pc (s : State) (c : Fault) : (s.raise c).pc = s.pc := rfl
@[simp] theorem State.raise_stack (s : State) (c : Fault) : (s.raise c).stack = s.stack := rfl
@[simp] theorem State.raise_sp (s : State) (c : Fault) : (s.raise c).sp = s.sp := rfl
@[simp] theorem State.raise_dt (s : State) (c : Fault) : (s.raise c).dt = s.dt := rfl
@[simp] theorem State.raise_st (s : State) (c : Fault) : (s.raise c).st = s.st := rfl
@[simp] theorem State.raise_mem (s : State) (c : Fault) : (s.raise c).mem = s.mem := rfl
@[simp] theorem State.raise_fb (s : State) (c : Fault) : (s.raise c).fb = s.fb := rfl
@[simp] theorem State.raise_key (s : State) (c : Fault) : (s.raise c).key = s.key := rfl
@[simp] theorem State.raise_redraw (s : State) (c : Fault) : (s.raise c).redraw = s.redraw := rfl
@[simp] theorem State.raise_tonePending (s : State) (c : Fault) : (s.raise c).tonePending = s.tonePending := rfl
@[simp] theorem State.raise_mode (s : State) (c : Fault) : (s.raise c).mode = .halted c := rfl
@[simp] theorem State.raise_status (s : State) (c : Fault) : (s.raise c).status = .fault c := rfl
@[simp] theorem State.raise_draws (s : State) (c : Fault) : (s.raise c).draws = s.draws := rfl
@[simp] theorem State.raise_font (s : State) (c : Fault) : (s.raise c).font = s.font := rfl

@[simp] theorem State.awaitKey_v (s : State) : (s.awaitKey).v = s.v := rfl
@[simp] theorem State.awaitKey_i (s : State) : (s.awaitKey).i = s.i := rfl
@[simp] theorem State.awaitKey_pc (s : State) : (s.awaitKey).pc = s.pc := rfl
@[simp] theorem State.awaitKey_stack (s : State) : (s.awaitKey).stack = s.stack := rfl
@[simp] theorem State.awaitKey_sp (s : State) : (s.awaitKey).sp = s.sp := rfl
@[simp] theorem State.awaitKey_dt (s : State) : (s.awaitKey).dt = s.dt := rfl
@[simp] theorem State.awaitKey_st (s : State) : (s.awaitKey).st = s.st := rfl
@[simp] theorem State.awaitKey_mem (s : State) : (s.awaitKey).mem = s.mem := rfl
@[simp] theorem State.awaitKey_fb (s : State) : (s.awaitKey).fb = s.fb := rfl
@[simp] theorem State.awaitKey_key (s : State) : (s.awaitKey).key = s.key := rfl
@[simp] theorem State.awaitKey_redraw (s : State) : (s.awaitKey).redraw = s.redraw := rfl
@[simp] theorem State.awaitKey_tonePending (s : State) : (s.awaitKey).tonePending = s.tonePending := rfl
@[simp] theorem State.awaitKey_mode (s : State) : (s.awaitKey).mode = .awaitingKey := rfl
@[simp] theorem State.awaitKey_status (s : State) : (s.awaitKey).status = .waitingForKey := rfl
@[simp] theorem State.awaitKey_draws (s : State) : (s.awaitKey).draws = s.draws := rfl
@[simp] theorem State.awaitKey_font (s : State) : (s.awaitKey).font = s.font := rfl

@[simp] theorem State.reportUnknown_v (s : State) (op : Word) : (s.reportUnknown op).v = s.v := rfl
@[simp] theorem State.reportUnknown_i (s : State) (op : Word) : (s.reportUnknown op).i = s.i := rfl
@[simp] theorem State.reportUnknown_pc (s : State) (op : Word) : (s.reportUnknown op).pc = s.pc + 2 := rfl
@[simp] theorem State.reportUnknown_stack (s : State) (op : Word) : (s.reportUnknown op).stack = s.stack := rfl
@[simp] theorem State.reportUnknown_sp (s : State) (op : Word) : (s.reportUnknown op).sp = s.sp := rfl
@[simp] theorem State.reportUnknown_dt (s : State) (op : Word) : (s.reportUnknown op).dt = s.dt := rfl
@[simp] theorem State.reportUnknown_st (s : State) (op : Word) : (s.reportUnknown op).st = s.st := rfl
@[simp] theorem State.reportUnknown_mem (s : State) (op : Word) : (s.reportUnknown op).mem = s.mem := rfl
@[simp] theorem State.reportUnknown_fb (s : State) (op : Word) : (s.reportUnknown op).fb = s.fb := rfl
@[simp] theorem State.reportUnknown_key (s : State) (op : Word) : (s.reportUnknown op).key = s.key := rfl
@[simp] theorem State.reportUnknown_redraw (s : State) (op : Word) : (s.reportUnknown op).redraw = s.redraw := rfl
@[simp] theorem State.reportUnknown_tonePending (s : State) (op : Word) : (s.reportUnknown op).tonePending = s.tonePending := rfl
@[simp] theorem State.reportUnknown_mode (s : State) (op : Word) : (s.reportUnknown op).mode = .running := rfl
@[simp] theorem State.reportUnknown_status (s : State) (op : Word) : (s.reportUnknown op).status = .unknownOpcode op := rfl
@[simp] theorem State.reportUnknown_draws (s : State) (op : Word) : (s.reportUnknown op).draws = s.draws := rfl
@[simp] theorem State.reportUnknown_font (s : State) (op : Word) : (s.reportUnknown op).font = s.font := rfl

@[simp] theorem State.timerTick_v (s : State) : (s.timerTick).v = s.v := rfl
@[simp] theorem State.timerTick_i (s : State) : (s.timerTick).i = s.i := rfl
@[simp] theorem State.timerTick_pc (s : State) : (s.timerTick).pc = s.pc := rfl
@[simp] theorem State.timerTick_stack (s : State) : (s.timerTick).stack = s.stack := rfl
@[simp] theorem State.timerTick_sp (s : State) : (s.timerTick).sp = s.sp := rfl
@[simp] theorem State.timerTick_dt (s : State) : (s.timerTick).dt = countDown s.dt := rfl
@[simp] theorem State.timerTick_st (s : State) : (s.timerTick).st = countDown s.st := rfl
@[simp] theorem State.timerTick_mem (s : State) : (s.timerTick).mem = s.mem := rfl
@[simp] theorem State.timerTick_fb (s : State) : (s.timerTick).fb = s.fb := rfl
@[simp] theorem State.timerTick_key (s : State) : (s.timerTick).key = s.key := rfl
@[simp] theorem State.timerTick_redraw (s : State) : (s.timerTick).redraw = s.redraw := rfl
@[simp] theorem State.timerTick_tonePending (s : State) : (s.timerTick).tonePending = (s.tonePending || s.st == 1) := rfl
@[simp] theorem State.timerTick_mode (s : State) : (s.timerTick).mode = s.mode := rfl
@[simp] theorem State.timerTick_status (s : State) : (s.timerTick).status = s.status := rfl
@[simp] theorem State.timerTick_draws (s : State) : (s.timerTick).draws = s.draws := rfl
@[simp] theorem State.timerTick_font (s : State) : (s.timerTick).font = s.font := rfl

@[simp] theorem State.loadRegs_v (s : State) (bytes : List Byte) : (s.loadRegs bytes).v = Vector.ofFn fun k : Fin 16 => bytes.getD k.val s.v[k] := rfl
@[simp] theorem State.loadRegs_i (s : State) (bytes : List Byte) : (s.loadRegs bytes).i = s.i := rfl
@[simp] theorem State.loadRegs_pc (s : State) (bytes : List Byte) : (s.loadRegs bytes).pc = s.pc := rfl
@[simp] theorem State.loadRegs_stack (s : State) (bytes : List Byte) : (s.loadRegs bytes).stack = s.stack := rfl
@[simp] theorem State.loadRegs_sp (s : State) (bytes : List Byte) : (s.loadRegs bytes).sp = s.sp := rfl
@[simp] theorem State.loadRegs_dt (s : State) (bytes : List Byte) : (s.loadRegs bytes).dt = s.dt := rfl
@[simp] theorem State.loadRegs_st (s : State) (bytes : List Byte) : (s.loadRegs bytes).st = s.st := rfl
@[simp] theorem State.loadRegs_mem (s : State) (bytes : List Byte) : (s.loadRegs bytes).mem = s.mem := rfl
@[simp] theorem State.loadRegs_fb (s : State) (bytes : List Byte) : (s.loadRegs bytes).fb = s.fb := rfl
@[simp] theorem State.loadRegs_key (s : State) (bytes : List Byte) : (s.loadRegs bytes).key = s.key := rfl
@[simp] theorem State.loadRegs_redraw (s : State) (bytes : List Byte) : (s.loadRegs bytes).redraw = s.redraw := rfl
@[simp] theorem State.loadRegs_tonePending (s : State) (bytes : List Byte) : (s.loadRegs bytes).tonePending = s.tonePending := rfl
@[simp] theorem State.loadRegs_mode (s : State) (bytes : List Byte) : (s.loadRegs bytes).mode = s.mode := rfl
@[simp] theorem State.loadRegs_status (s : State) (bytes : List Byte) : (s.loadRegs bytes).status = s.status := rfl
@[simp] theorem State.loadRegs_draws (s : State) (bytes : List Byte) : (s.loadRegs bytes).draws = s.draws := rfl
@[simp] theorem State.loadRegs_font (s : State) (bytes : List Byte) : (s.loadRegs bytes).font = s.font := rfl

@[simp] theorem State.store_v (s : State) (a : Nat) (bytes : List Byte) : (s.store a bytes).v = s.v := rfl
@[simp] theorem State.store_i (s : State) (a : Nat) (bytes : List Byte) : (s.store a bytes).i = s.i := rfl
@[simp] theorem State.store_pc (s : State) (a : Nat) (bytes : List Byte) : (s.store a bytes).pc = s.pc := rfl
@[simp] theorem State.store_stack (s : State) (a : Nat) (bytes : List Byte) : (s.store a bytes).stack = s.stack := rfl
@[simp] theorem State.store_sp (s : State) (a : Nat) (bytes : List Byte) : (s.store a bytes).sp = s.sp := rfl
@[simp] theorem State.store_dt (s : State) (a : Nat) (bytes : List Byte) : (s.store a bytes).dt = s.dt := rfl
@[simp] theorem State.store_st (s : State) (a : Nat) (bytes : List Byte) : (s.store a bytes).st = s.st := rfl
@[simp] theorem State.store_fb (s : State) (a : Nat) (bytes : List Byte) : (s.store a bytes).fb = s.fb := rfl
@[simp] theorem State.store_key (s : State) (a : Nat) (bytes : List Byte) : (s.store a bytes).key = s.key := rfl
@[simp] theorem State.store_redraw (s : State) (a : Nat) (bytes : List Byte) : (s.store a bytes).redraw = s.redraw := rfl
@[simp] theorem State.store_tonePending (s : State) (a : Nat) (bytes : List Byte) : (s.store a bytes).tonePending = s.tonePending := rfl
@[simp] theorem State.store_mode (s : State) (a : Nat) (bytes : List Byte) : (s.store a bytes).mode = s.mode := rfl
@[simp] theorem State.store_status (s : State) (a : Nat) (bytes : List Byte) : (s.store a bytes).status = s.status := rfl
@[simp] theorem State.store_draws (s : State) (a : Nat) (bytes : List Byte) : (s.store a bytes).draws = s.draws := rfl
@[simp] theorem State.store_font (s : State) (a : Nat) (bytes : List Byte) : (s.store a bytes).font = s.font := rfl
@[simp] theorem State.store_mem (s : State) (a : Nat) (bytes : List Byte) :
    (s.store a bytes).mem = Memory.writeBytes s.font s.mem a bytes := rfl

@[simp] theorem State.setV_byteAt (s : State) (x : Reg) (b : Byte) (a : Nat) : (s.setV x b).byteAt a = s.byteAt a := rfl
@[simp] theorem State.complete_byteAt (s : State) (p : Word) (a : Nat) : (s.complete p).byteAt a = s.byteAt a := rfl
@[simp] theorem State.raise_byteAt (s : State) (c : Fault) (a : Nat) : (s.raise c).byteAt a = s.byteAt a := rfl
@[simp] theorem State.awaitKey_byteAt (s : State) (a : Nat) : (s.awaitKey).byteAt a = s.byteAt a := rfl
@[simp] theorem State.reportUnknown_byteAt (s : State) (op : Word) (a : Nat) : (s.reportUnknown op).byteAt a = s.byteAt a := rfl
@[simp] theorem State.timerTick_byteAt (s : State) (a : Nat) : (s.timerTick).byteAt a = s.byteAt a := rfl
@[simp] theorem State.loadRegs_byteAt (s : State) (bytes : List Byte) (a : Nat) : (s.loadRegs bytes).byteAt a = s.byteAt a := rfl

@[simp] theorem State.advance_eq (s : State) : s.advance = s.complete (s.pc + 2) := rfl

@[simp] theorem State.skipIf_eq (s : State) (b : Bool) :
    s.skipIf b = s.complete (if b then s.pc + 4 else s.pc + 2) := rfl

@[simp] theorem State.setFlagThenV_eq (s : State) (flag : Byte) (x : Reg) (b : Byte) :
    s.setFlagThenV flag x b = (s.setV vF flag).setV x b := rfl

@[simp] theorem State.drawByte_fst (s : State) : s.drawByte.1 = Config.rndDraw s.draws := rfl

@[simp] theorem State.drawByte_snd (s : State) : s.drawByte.2 = { s with draws := s.draws + 1 } := rfl

/-- A register just written reads as written. -/
@[simp] theorem State.getV_setV_same (s : State) (x : Reg) (b : Byte) : (s.setV x b).getV x = b := by
  simp [State.getV]

/-- Writing one register leaves the others alone. -/
theorem State.getV_setV_other (s : State) (x y : Reg) (b : Byte) (h : y ≠ x) :
    (s.setV x b).getV y = s.getV y := by
  have : x.val ≠ y.val := fun e => h (Fin.ext e.symm)
  simp [State.getV, this]

theorem State.getV_setV (s : State) (x y : Reg) (b : Byte) :
    (s.setV x b).getV y = if y = x then b else s.getV y := by
  by_cases h : y = x
  · subst h; simp
  · simp [h, State.getV_setV_other]

end Sys2Proof.Machine
end

