-- ==== Sys2Proof/Laws/Ops.lean ====
section
/-! SUPPORT. Laws/Ops.lean: one law for each shared operation, saying everything it can do. -/

namespace Sys2Proof.Machine

/-- Everything a store does to the bytes of memory: the bytes it stores, and nothing outside them. -/
theorem State.byteAt_store (s : State) (a b : Nat) (bytes : List Byte) :
    (s.store a bytes).byteAt b =
      if a ≤ b ∧ b < a + bytes.length then bytes.getD (b - a) 0 else s.byteAt b :=
  Memory.read_writeBytes s.font s.mem a b bytes

/-- A byte of memory depends on the memory and the font alone. -/
theorem State.byteAt_congr {s t : State} (hm : t.mem = s.mem) (hf : t.font = s.font) (a : Nat) :
    t.byteAt a = s.byteAt a := by
  simp only [State.byteAt, hm, hf]

theorem State.bytesAt_congr {s t : State} (hm : t.mem = s.mem) (hf : t.font = s.font) (a n : Nat) :
    t.bytesAt a n = s.bytesAt a n := by
  simp only [State.bytesAt, hm, hf]

theorem State.length_bytesAt (s : State) (a n : Nat) : (s.bytesAt a n).length = n :=
  Memory.length_readBytes s.font s.mem a n

theorem State.getD_bytesAt (s : State) (a n k : Nat) (d : Byte) :
    (s.bytesAt a n).getD k d = if k < n then s.byteAt (a + k) else d :=
  Memory.getD_readBytes s.font s.mem a n k d

/-- A store inside memory keeps the canonical form. -/
theorem State.wf_store (s : State) (a : Nat) (bytes : List Byte) (h : Memory.wf s.font s.mem)
    (ha : a + bytes.length ≤ Config.memSize) : Memory.wf (s.store a bytes).font (s.store a bytes).mem :=
  Memory.wf_writeBytes s.font s.mem a bytes h ha

/-- The range check passes exactly when no byte or only bytes of memory are touched. -/
theorem rangeFault_eq_none (a len : Nat) : rangeFault a len = none ↔ len = 0 ∨ a + len ≤ 4096 := by
  unfold rangeFault Config.memSize
  split <;> simp <;> omega

/-- The range check fails with the lowest address out of range. -/
theorem rangeFault_eq_some (a len : Nat) (c : Fault) :
    rangeFault a len = some c ↔ len ≠ 0 ∧ 4096 < a + len ∧ c = .memoryOutOfRange (max a 4096) := by
  unfold rangeFault Config.memSize
  split <;> simp_all [eq_comm]

theorem State.readBytes_eq (s : State) (a len : Nat) :
    s.readBytes a len =
      if len = 0 ∨ a + len ≤ 4096 then .ok (s.bytesAt a len)
      else .error (.memoryOutOfRange (max a 4096)) := by
  unfold State.readBytes
  split
  · rename_i c h
    obtain ⟨h1, h2, rfl⟩ := (rangeFault_eq_some a len c).1 h
    rw [if_neg (by omega)]
  · rename_i h
    rw [if_pos ((rangeFault_eq_none a len).1 h)]

theorem State.writeBytes_eq (s : State) (a : Nat) (bytes : List Byte) :
    s.writeBytes a bytes =
      if bytes.length = 0 ∨ a + bytes.length ≤ 4096 then .ok (s.store a bytes)
      else .error (.memoryOutOfRange (max a 4096)) := by
  unfold State.writeBytes
  split
  · rename_i c h
    obtain ⟨h1, h2, rfl⟩ := (rangeFault_eq_some a _ c).1 h
    rw [if_neg (by omega)]
  · rename_i h
    rw [if_pos ((rangeFault_eq_none a _).1 h)]

theorem State.push_of_lt (s : State) (w : Word) (h : s.sp.val < 16) :
    s.push w = .ok { s with stack := s.stack.set s.sp.val w h, sp := ⟨s.sp.val + 1, by omega⟩ } := by
  simp [State.push, h]

theorem State.push_of_full (s : State) (w : Word) (h : s.sp.val = 16) : s.push w = .error .stackOverflow := by
  simp [State.push, h]

theorem State.pop_of_pos (s : State) (h : 0 < s.sp.val) :
    s.pop = .ok (s.stack[s.sp.val - 1]'(by omega), { s with sp := ⟨s.sp.val - 1, by omega⟩ }) := by
  have : s.sp.val ≠ 0 := by omega
  unfold State.pop
  rw [dif_neg this]

theorem State.pop_of_empty (s : State) (h : s.sp.val = 0) : s.pop = .error .stackUnderflow := by
  unfold State.pop
  rw [dif_pos h]

theorem State.keyDown_of_lt (s : State) (b : Byte) (h : b.toNat < 16) :
    s.keyDown b = .ok (s.key.getLsbD b.toNat) := by
  simp [State.keyDown, h]

theorem State.keyDown_of_le (s : State) (b : Byte) (h : 16 ≤ b.toNat) :
    s.keyDown b = .error (.keyIndexOutOfRange b) := by
  simp [State.keyDown, Nat.not_lt.2 h]

@[simp] theorem State.attempt_ok (s t : State) : s.attempt (.ok t) = .next t := rfl

@[simp] theorem State.attempt_error (s : State) (c : Fault) : s.attempt (.error c) = .next (s.raise c) := rfl

/-- The two ends of an instruction with a check. -/
theorem State.attempt_next (s : State) (r : Except Fault State) :
    ∃ t, s.attempt r = .next t ∧ (r = .ok t ∨ ∃ c, r = .error c ∧ t = s.raise c) := by
  cases r with
  | ok t => exact ⟨t, rfl, .inl rfl⟩
  | error c => exact ⟨s.raise c, rfl, .inr ⟨c, rfl, rfl⟩⟩

/-- An instruction with a check, opened on the check's answer. -/
theorem State.attempt_map {α : Type} (s : State) (r : Except Fault α) (f : α → State) :
    s.attempt (r.map f) =
      match r with
      | .ok a => .next (f a)
      | .error c => .next (s.raise c) := by
  cases r <;> rfl

@[simp] theorem endCycle_next (t : State) :
    endCycle (.next t) = .next (if t.status.ticks then t.timerTick else t) := rfl

/-- A timer counts down and stays at zero. -/
theorem countDown_toNat (t : Byte) : (countDown t).toNat = t.toNat - 1 := by
  unfold countDown
  split
  · rename_i h
    have : 0 < t.toNat := by simpa [BitVec.lt_def] using h
    rw [BitVec.toNat_sub_of_le (by simp [BitVec.le_def]; omega)]
    simp
  · rename_i h
    have : t.toNat = 0 := by simpa [BitVec.lt_def] using h
    omega

/-- The fetch, opened. -/
theorem State.fetch_eq (s : State) :
    s.fetch =
      if s.pc.toNat + 2 ≤ 4096 then
        .ok (opcodeOfBytes (s.byteAt s.pc.toNat) (s.byteAt (s.pc.toNat + 1)))
      else .error (.memoryOutOfRange (max s.pc.toNat 4096)) := by
  unfold State.fetch
  split
  · rename_i c h
    obtain ⟨h1, h2, rfl⟩ := (rangeFault_eq_some _ 2 c).1 h
    rw [if_neg (by omega)]
  · rename_i h
    rw [if_pos (by have := (rangeFault_eq_none _ 2).1 h; omega)]

/-- The step, opened: halted, fetch fault, or the decoded word and the tick (spec/40_step_cycle.md R120). -/
theorem step_eq (s : State) :
    step s =
      match s.mode with
      | .halted c => .next (s.raise c)
      | .running | .awaitingKey =>
        match s.fetch with
        | .error c => .next (s.raise c)
        | .ok op => endCycle (runDecoded (decode op) s) := rfl

/-- The step of a core that is not halted. -/
theorem step_of_notHalted (s : State) (h : s.mode = .running ∨ s.mode = .awaitingKey) :
    step s =
      match s.fetch with
      | .error c => .next (s.raise c)
      | .ok op => endCycle (runDecoded (decode op) s) := by
  rcases h with h | h <;> simp only [step_eq, h]

/-- No key, no pick; else the pick is a pressed key (spec/45_keys_timers.md R246). -/
theorem chooseKey_mem (ks : List Reg) (n : Nat) (k : Reg) (h : chooseKey ks n = some k) : k ∈ ks := by
  match ks, h with
  | [j], h => simp [chooseKey] at h; simp [h]
  | j :: l :: ks, h =>
    simp only [chooseKey, Option.some.injEq] at h
    have hlt : n % ((l :: ks).length + 1) < (j :: l :: ks).length := Nat.mod_lt _ (Nat.succ_pos _)
    rw [List.getD_eq_getElem _ _ hlt] at h
    exact h ▸ List.getElem_mem _

theorem chooseKey_none (ks : List Reg) (n : Nat) : chooseKey ks n = none ↔ ks = [] := by
  match ks with
  | [] => simp [chooseKey]
  | [j] => simp [chooseKey]
  | j :: l :: ks => simp [chooseKey]

theorem mem_pressedKeys (keys : BitVec 16) (k : Reg) : k ∈ pressedKeys keys ↔ keys.getLsbD k.val = true := by
  simp [pressedKeys]

theorem keyPick_pressed (keys : BitVec 16) (k : Reg) (h : keyPick keys = some k) : keys.getLsbD k.val = true :=
  (mem_pressedKeys keys k).1 (chooseKey_mem _ _ k h)

theorem keyPick_eq_none (keys : BitVec 16) : keyPick keys = none ↔ ∀ k : Reg, keys.getLsbD k.val = false := by
  simp [keyPick, chooseKey_none, pressedKeys, List.filter_eq_nil_iff]

end Sys2Proof.Machine
end

