-- ==== Sys2Proof/Laws/Display.lean ====
section
/-! SUPPORT. Laws/Display.lean: what drawing does to each cell and to the collision flag (spec/44_display.md R221 to R224). -/

namespace Sys2Proof.Machine

theorem Screen.cell_of_ge (fb : Screen) (k : Nat) (h : 2048 ≤ k) : fb.cell k = false := by
  unfold Screen.cell
  rw [dif_neg (by omega)]

/-- A clear screen has no cell set. -/
@[simp] theorem Screen.cell_clear (k : Nat) : Screen.cell (Vector.replicate 32 0) k = false := by
  simp [Screen.cell]

/-- Toggling a cell flips it and leaves the others alone. -/
theorem Screen.cell_toggle (fb : Screen) (k j : Nat) (hk : k < 2048) :
    (fb.toggle k).cell j = (fb.cell j ^^ decide (j = k)) := by
  have h1 : k / 64 < 32 := by omega
  by_cases hj : j / 64 < 32
  · simp only [Screen.toggle, Screen.cell, h1, hj, dif_pos, Vector.getElem_set]
    by_cases hr : k / 64 = j / 64
    · have hx : (1#64 <<< (k % 64)).getLsbD (j % 64) = decide (j = k) := by
        have : j % 64 < 64 := Nat.mod_lt _ (by omega)
        by_cases hjk : j = k
        · subst hjk; simp [this]
        · have : ¬ j % 64 - k % 64 = 0 ∨ j % 64 < k % 64 := by omega
          rcases this with h | h <;> simp [hjk, h]
      simp [hr, hx]
    · have : j ≠ k := by rintro rfl; exact hr rfl
      simp [hr, this]
  · have : j ≠ k := by omega
    simp [Screen.cell, hj, this]

theorem spriteCell_lt {vx vy row col k : Nat} (h : spriteCell vx vy row col = some k) : k < 2048 := by
  unfold spriteCell at h
  split at h <;> simp at h
  omega

/-- A column of a sprite row has its cell to itself (R223: no cell is addressed twice). -/
theorem spriteCell_inj {vx vy row row' col col' k : Nat} (hc : col < 8) (hc' : col' < 8)
    (h : spriteCell vx vy row col = some k) (h' : spriteCell vx vy row' col' = some k) :
    row = row' ∧ col = col' := by
  unfold spriteCell at h h'
  split at h <;> simp at h
  split at h' <;> simp at h'
  omega

/-- Cell `k` is the target of a 1 bit of `b` in one of the columns `cols`. -/
abbrev columnHit (vx vy row : Nat) (b : Byte) (cols : List Nat) (k : Nat) : Prop :=
  ∃ col ∈ cols, b.getLsbD (7 - col) = true ∧ spriteCell vx vy row col = some k

theorem foldl_drawPixel (vx vy row : Nat) (b : Byte) (cols : List Nat) (acc : Screen × Bool)
    (hn : cols.Nodup) (h8 : ∀ c ∈ cols, c < 8) :
    (∀ k, (cols.foldl (drawPixel vx vy row b) acc).1.cell k =
        (acc.1.cell k ^^ decide (columnHit vx vy row b cols k))) ∧
      ((cols.foldl (drawPixel vx vy row b) acc).2 = true ↔
        acc.2 = true ∨ ∃ k, acc.1.cell k = true ∧ columnHit vx vy row b cols k) := by
  induction cols generalizing acc with
  | nil => simp [columnHit]
  | cons c cs ih =>
    obtain ⟨hc, hcs⟩ := List.nodup_cons.1 hn
    obtain ⟨ih1, ih2⟩ := ih (drawPixel vx vy row b acc c) hcs fun d hd => h8 d (by simp [hd])
    have hc8 : c < 8 := h8 c (by simp)
    rw [List.foldl_cons]
    -- the pixel of column `c` alone
    by_cases hb : b.getLsbD (7 - c) = true
    · rcases hs : spriteCell vx vy row c with _ | k
      · have hp : drawPixel vx vy row b acc c = acc := by simp [drawPixel, hb, hs]
        have hh : ∀ j, columnHit vx vy row b (c :: cs) j ↔ columnHit vx vy row b cs j := by
          intro j; simp [columnHit, hs]
        rw [hp] at ih1 ih2 ⊢
        exact ⟨fun j => by rw [ih1 j]; simp only [hh], by rw [ih2]; simp only [hh]⟩
      · have hk := spriteCell_lt hs
        have hp : drawPixel vx vy row b acc c = (acc.1.toggle k, acc.2 || acc.1.cell k) := by
          simp [drawPixel, hb, hs]
        have hnk : ¬ columnHit vx vy row b cs k := by
          rintro ⟨d, hd, -, hds⟩
          obtain ⟨-, rfl⟩ := spriteCell_inj hc8 (h8 d (by simp [hd])) hs hds
          exact hc hd
        have hh : ∀ j, columnHit vx vy row b (c :: cs) j ↔ j = k ∨ columnHit vx vy row b cs j := by
          intro j
          constructor
          · rintro ⟨d, hd, hbd, hds⟩
            rcases List.mem_cons.1 hd with rfl | hd
            · left; rw [hs] at hds; exact (Option.some.inj hds).symm
            · exact .inr ⟨d, hd, hbd, hds⟩
          · rintro (rfl | ⟨d, hd, hbd, hds⟩)
            · exact ⟨c, by simp, hb, hs⟩
            · exact ⟨d, by simp [hd], hbd, hds⟩
        rw [hp] at ih1 ih2 ⊢
        constructor
        · intro j
          rw [ih1 j, Screen.cell_toggle _ _ _ hk]
          by_cases hj : j = k
          · subst hj; simp only [hh, hnk]; simp
          · simp only [hh, hj, false_or]; simp
        · rw [ih2]
          simp only [hh, Bool.or_eq_true]
          constructor
          · rintro ((h | h) | ⟨j, hj, hjc⟩)
            · exact .inl h
            · exact .inr ⟨k, h, .inl rfl⟩
            · have hjk : j ≠ k := by rintro rfl; exact hnk hjc
              rw [Screen.cell_toggle _ _ _ hk] at hj
              exact .inr ⟨j, by simpa [hjk] using hj, .inr hjc⟩
          · rintro (h | ⟨j, hj, rfl | hjc⟩)
            · exact .inl (.inl h)
            · exact .inl (.inr hj)
            · have hjk : j ≠ k := by rintro rfl; exact hnk hjc
              refine .inr ⟨j, ?_, hjc⟩
              rw [Screen.cell_toggle _ _ _ hk]
              simpa [hjk] using hj
    · have hp : drawPixel vx vy row b acc c = acc := by simp [drawPixel, hb]
      have hh : ∀ j, columnHit vx vy row b (c :: cs) j ↔ columnHit vx vy row b cs j := by
        intro j; simp [columnHit, hb]
      rw [hp] at ih1 ih2 ⊢
      exact ⟨fun j => by rw [ih1 j]; simp only [hh], by rw [ih2]; simp only [hh]⟩

/-- Cell `k` is the target of a 1 bit of a sprite whose first byte is in row `row` (R221 to R223). -/
abbrev spriteHit (vx vy row : Nat) (bytes : List Byte) (k : Nat) : Prop :=
  ∃ r < bytes.length, columnHit vx vy (row + r) (bytes.getD r 0) (List.range 8) k

/-- Drawing toggles exactly the cells the sprite hits, and collides exactly when one of them was set. -/
theorem drawRows_spec (vx vy row : Nat) (bytes : List Byte) (acc : Screen × Bool) :
    (∀ k, (drawRows vx vy row bytes acc).1.cell k =
        (acc.1.cell k ^^ decide (spriteHit vx vy row bytes k))) ∧
      ((drawRows vx vy row bytes acc).2 = true ↔
        acc.2 = true ∨ ∃ k, acc.1.cell k = true ∧ spriteHit vx vy row bytes k) := by
  induction bytes generalizing row acc with
  | nil => simp [drawRows, spriteHit]
  | cons b bs ih =>
    obtain ⟨ih1, ih2⟩ := ih (row + 1) (drawRow vx vy row b acc)
    obtain ⟨r1, r2⟩ := foldl_drawPixel vx vy row b (List.range 8) acc List.nodup_range (by simp)
    have hh : ∀ k, spriteHit vx vy row (b :: bs) k ↔
        columnHit vx vy row b (List.range 8) k ∨ spriteHit vx vy (row + 1) bs k := by
      intro k
      constructor
      · rintro ⟨r, hr, h⟩
        rcases r with _ | r
        · exact .inl h
        · refine .inr ⟨r, by simpa using hr, ?_⟩
          rwa [List.getD_cons_succ, show row + (r + 1) = row + 1 + r by omega] at h
      · rintro (h | ⟨r, hr, h⟩)
        · exact ⟨0, by simp, h⟩
        · refine ⟨r + 1, by simpa using hr, ?_⟩
          rwa [List.getD_cons_succ, show row + (r + 1) = row + 1 + r by omega]
    have hx : ∀ k, columnHit vx vy row b (List.range 8) k → ¬ spriteHit vx vy (row + 1) bs k := by
      rintro k ⟨c, hc, -, hcs⟩ ⟨r, -, d, hd, -, hds⟩
      obtain ⟨h, -⟩ := spriteCell_inj (List.mem_range.1 hc) (List.mem_range.1 hd) hcs hds
      omega
    have hrow : drawRow vx vy row b acc = (List.range 8).foldl (drawPixel vx vy row b) acc := rfl
    rw [drawRows]
    constructor
    · intro k
      rw [ih1 k, hrow, r1 k]
      by_cases h1 : columnHit vx vy row b (List.range 8) k
      · have h2 := hx k h1
        have h3 := (hh k).2 (.inl h1)
        rw [decide_eq_true h1, decide_eq_false h2, decide_eq_true h3]
        simp
      · have h3 : spriteHit vx vy row (b :: bs) k ↔ spriteHit vx vy (row + 1) bs k := by
          rw [hh k]; simp [h1]
        have h4 : decide (spriteHit vx vy row (b :: bs) k) = decide (spriteHit vx vy (row + 1) bs k) :=
          decide_eq_decide.2 h3
        rw [decide_eq_false h1, h4]
        simp
    · rw [ih2, hrow, r2]
      constructor
      · rintro ((h | ⟨k, hk, hkc⟩) | ⟨k, hk, hkc⟩)
        · exact .inl h
        · exact .inr ⟨k, hk, (hh k).2 (.inl hkc)⟩
        · have hn : ¬ columnHit vx vy row b (List.range 8) k := fun h => hx k h hkc
          rw [r1 k, decide_eq_false hn] at hk
          exact .inr ⟨k, by simpa using hk, (hh k).2 (.inr hkc)⟩
      · rintro (h | ⟨k, hk, hkc⟩)
        · exact .inl (.inl h)
        · rcases (hh k).1 hkc with h | h
          · exact .inl (.inr ⟨k, hk, h⟩)
          · have hn : ¬ columnHit vx vy row b (List.range 8) k := fun h' => hx k h' h
            exact .inr ⟨k, by rw [r1 k, decide_eq_false hn]; simpa using hk, h⟩

end Sys2Proof.Machine
end

