-- ==== Sys2Proof/Laws/PerInstr.lean ====
section
/-! SUPPORT. Laws/PerInstr.lean: for every instruction, its opcode lies in its row of the opcode map (spec/30_encoding.md R103). -/

namespace Sys2Proof

/-- The bits of four nibbles joined. -/
theorem nibbles_getLsbD (a b c d : BitVec 4) (i : Nat) :
    (((a ++ b) ++ c) ++ d).getLsbD i =
      if i < 4 then d.getLsbD i
      else if i - 4 < 4 then c.getLsbD (i - 4)
      else if i - 4 - 4 < 4 then b.getLsbD (i - 4 - 4) else a.getLsbD (i - 4 - 4 - 4) := by
  simp only [BitVec.getLsbD_append]

/-- The bits of two nibbles and a byte joined. -/
theorem nibblesByte_getLsbD (a b : BitVec 4) (c : Byte) (i : Nat) :
    ((a ++ b) ++ c).getLsbD i =
      if i < 8 then c.getLsbD i else if i - 8 < 4 then b.getLsbD (i - 8) else a.getLsbD (i - 8 - 4) := by
  simp only [BitVec.getLsbD_append]

/-- The mask of a row selected on the top nibble. -/
theorem and_familyMask (w : Word) : w &&& 0xF000#16 = packXyn (famField w) 0 0 0 := by
  apply BitVec.eq_of_getLsbD_eq
  intro i hi
  refine Eq.trans ?_ (nibbles_getLsbD (famField w) (regBits 0) (regBits 0) 0 i).symm
  interval_cases i <;> simp [famField, regBits]

/-- The mask of a row selected on the top and the trailing nibble. -/
theorem and_nibbleMask (w : Word) : w &&& 0xF00F#16 = packXyn (famField w) 0 0 (nField w) := by
  apply BitVec.eq_of_getLsbD_eq
  intro i hi
  refine Eq.trans ?_ (nibbles_getLsbD (famField w) (regBits 0) (regBits 0) (nField w) i).symm
  interval_cases i <;> simp [famField, nField, regBits]

/-- The mask of a row selected on the top nibble and the trailing byte. -/
theorem and_byteMask (w : Word) : w &&& 0xF0FF#16 = packXnn (famField w) 0 (nnField w) := by
  apply BitVec.eq_of_getLsbD_eq
  intro i hi
  refine Eq.trans ?_ (nibblesByte_getLsbD (famField w) (regBits 0) (nnField w) i).symm
  interval_cases i <;> simp [famField, nnField, regBits]

end Sys2Proof

namespace Sys2Proof.Laws.EncodingRow

/-- The opcode of `i`, masked as its row says, is the row's pattern. -/
def Statement (i : Instr) : Prop := encode i &&& i.row.mask = i.row.pattern

theorem cls : Statement .cls := by
  show encode .cls &&& _ = _
  decide

theorem ret : Statement .ret := by
  show encode .ret &&& _ = _
  decide

theorem jp (nnn : Addr) : Statement (.jp nnn) := by
  simp only [Statement, encode, Instr.row, and_familyMask, famField_packNnn]
  decide

theorem call (nnn : Addr) : Statement (.call nnn) := by
  simp only [Statement, encode, Instr.row, and_familyMask, famField_packNnn]
  decide

theorem seVxNn (x : Reg) (nn : Byte) : Statement (.seVxNn x nn) := by
  simp only [Statement, encode, Instr.row, and_familyMask, famField_packXnn]
  decide

theorem sneVxNn (x : Reg) (nn : Byte) : Statement (.sneVxNn x nn) := by
  simp only [Statement, encode, Instr.row, and_familyMask, famField_packXnn]
  decide

theorem seVxVy (x y : Reg) : Statement (.seVxVy x y) := by
  simp only [Statement, encode, Instr.row, and_familyMask, famField_packXyn]
  decide

theorem ldVxNn (x : Reg) (nn : Byte) : Statement (.ldVxNn x nn) := by
  simp only [Statement, encode, Instr.row, and_familyMask, famField_packXnn]
  decide

theorem addVxNn (x : Reg) (nn : Byte) : Statement (.addVxNn x nn) := by
  simp only [Statement, encode, Instr.row, and_familyMask, famField_packXnn]
  decide

theorem ldVxVy (x y : Reg) : Statement (.ldVxVy x y) := by
  simp only [Statement, encode, Instr.row, and_nibbleMask, famField_packXyn, nField_packXyn]
  decide

theorem or (x y : Reg) : Statement (.or x y) := by
  simp only [Statement, encode, Instr.row, and_nibbleMask, famField_packXyn, nField_packXyn]
  decide

theorem and (x y : Reg) : Statement (.and x y) := by
  simp only [Statement, encode, Instr.row, and_nibbleMask, famField_packXyn, nField_packXyn]
  decide

theorem xor (x y : Reg) : Statement (.xor x y) := by
  simp only [Statement, encode, Instr.row, and_nibbleMask, famField_packXyn, nField_packXyn]
  decide

theorem addVxVy (x y : Reg) : Statement (.addVxVy x y) := by
  simp only [Statement, encode, Instr.row, and_nibbleMask, famField_packXyn, nField_packXyn]
  decide

theorem sub (x y : Reg) : Statement (.sub x y) := by
  simp only [Statement, encode, Instr.row, and_nibbleMask, famField_packXyn, nField_packXyn]
  decide

theorem shr (x : Reg) : Statement (.shr x) := by
  simp only [Statement, encode, Instr.row, and_nibbleMask, famField_packXyn, nField_packXyn]
  decide

theorem subn (x y : Reg) : Statement (.subn x y) := by
  simp only [Statement, encode, Instr.row, and_nibbleMask, famField_packXyn, nField_packXyn]
  decide

theorem shl (x : Reg) : Statement (.shl x) := by
  simp only [Statement, encode, Instr.row, and_nibbleMask, famField_packXyn, nField_packXyn]
  decide

theorem sneVxVy (x y : Reg) : Statement (.sneVxVy x y) := by
  simp only [Statement, encode, Instr.row, and_familyMask, famField_packXyn]
  decide

theorem ldINnn (nnn : Addr) : Statement (.ldINnn nnn) := by
  simp only [Statement, encode, Instr.row, and_familyMask, famField_packNnn]
  decide

theorem jpV0 (nnn : Addr) : Statement (.jpV0 nnn) := by
  simp only [Statement, encode, Instr.row, and_familyMask, famField_packNnn]
  decide

theorem rnd (x : Reg) (nn : Byte) : Statement (.rnd x nn) := by
  simp only [Statement, encode, Instr.row, and_familyMask, famField_packXnn]
  decide

theorem drw (x y : Reg) (n : Nat) : Statement (.drw x y n) := by
  simp only [Statement, encode, Instr.row, and_familyMask, famField_packXyn]
  decide

theorem skp (x : Reg) : Statement (.skp x) := by
  simp only [Statement, encode, Instr.row, and_byteMask, famField_packXnn, nnField_packXnn]
  decide

theorem sknp (x : Reg) : Statement (.sknp x) := by
  simp only [Statement, encode, Instr.row, and_byteMask, famField_packXnn, nnField_packXnn]
  decide

theorem ldVxDt (x : Reg) : Statement (.ldVxDt x) := by
  simp only [Statement, encode, Instr.row, and_byteMask, famField_packXnn, nnField_packXnn]
  decide

theorem ldVxK (x : Reg) : Statement (.ldVxK x) := by
  simp only [Statement, encode, Instr.row, and_byteMask, famField_packXnn, nnField_packXnn]
  decide

theorem ldDtVx (x : Reg) : Statement (.ldDtVx x) := by
  simp only [Statement, encode, Instr.row, and_byteMask, famField_packXnn, nnField_packXnn]
  decide

theorem ldStVx (x : Reg) : Statement (.ldStVx x) := by
  simp only [Statement, encode, Instr.row, and_byteMask, famField_packXnn, nnField_packXnn]
  decide

theorem addIVx (x : Reg) : Statement (.addIVx x) := by
  simp only [Statement, encode, Instr.row, and_byteMask, famField_packXnn, nnField_packXnn]
  decide

theorem ldFVx (x : Reg) : Statement (.ldFVx x) := by
  simp only [Statement, encode, Instr.row, and_byteMask, famField_packXnn, nnField_packXnn]
  decide

theorem ldBVx (x : Reg) : Statement (.ldBVx x) := by
  simp only [Statement, encode, Instr.row, and_byteMask, famField_packXnn, nnField_packXnn]
  decide

theorem ldMemVx (x : Reg) : Statement (.ldMemVx x) := by
  simp only [Statement, encode, Instr.row, and_byteMask, famField_packXnn, nnField_packXnn]
  decide

theorem ldVxMem (x : Reg) : Statement (.ldVxMem x) := by
  simp only [Statement, encode, Instr.row, and_byteMask, famField_packXnn, nnField_packXnn]
  decide

end Sys2Proof.Laws.EncodingRow
end

