-- ==== Sys2Proof/Tests/Slice0.lean ====
section
/-! SUPPORT. Tests/Slice0.lean: tests with expected values from spec/95_test_vectors.md (the id of the vector stands at each), and for every obligation with hypotheses a state and operands that meet them. -/

open Sys2Proof Sys2Proof.Machine

namespace Sys2Proof.Tests

/-- The state a completed instruction leaves, if the step answers a next state. -/
def next? (r : Result) : Option State :=
  match r with
  | .next t => some t
  | .fault _ | .refused _ => none

/-- The reset state with some V registers set. -/
def regs (l : List (Reg × Byte)) : State := l.foldl (fun s p => s.setV p.1 p.2) State.reset

/-- One step of `s` with the word `w` at its PC. -/
def run (s : State) (w : Nat) : Option State := next? (step (s.withFetchWord 16 w))

/-! ### Well-formed instructions -/

theorem test_wf_rejects_sixteen_rows : (Instr.drw 0 0 16).wf = false := by decide

theorem test_wf_accepts_fifteen_rows : (Instr.drw 0 0 15).wf = true := by decide

theorem test_wf_accepts_no_rows : (Instr.drw 15 15 0).wf = true := by decide

/-! ### Decoding, words written out from spec/30_encoding.md (vectors V-DEC1 to V-DEC22) -/

theorem test_decode_cls : decode 0x00E0 = .ok .cls := by decide
theorem test_decode_ret : decode 0x00EE = .ok .ret := by decide
theorem test_decode_jp : decode 0x1ABC = .ok (.jp 0xABC) := by decide
theorem test_decode_call : decode 0x2F00 = .ok (.call 0xF00) := by decide
theorem test_decode_seVxNn : decode 0x3A55 = .ok (.seVxNn 10 0x55) := by decide
theorem test_decode_sneVxNn : decode 0x4A55 = .ok (.sneVxNn 10 0x55) := by decide
theorem test_decode_seVxVy : decode 0x5127 = .ok (.seVxVy 1 2) := by decide
theorem test_decode_ldVxNn : decode 0x600A = .ok (.ldVxNn 0 0x0A) := by decide
theorem test_decode_addVxNn : decode 0x7F01 = .ok (.addVxNn 15 1) := by decide
theorem test_decode_ldVxVy : decode 0x8AB0 = .ok (.ldVxVy 10 11) := by decide
theorem test_decode_or : decode 0x8AB1 = .ok (.or 10 11) := by decide
theorem test_decode_and : decode 0x8AB2 = .ok (.and 10 11) := by decide
theorem test_decode_xor : decode 0x8AB3 = .ok (.xor 10 11) := by decide
theorem test_decode_addVxVy : decode 0x8AB4 = .ok (.addVxVy 10 11) := by decide
theorem test_decode_sub : decode 0x8AB5 = .ok (.sub 10 11) := by decide
theorem test_decode_shr : decode 0x8AB6 = .ok (.shr 10) := by decide
theorem test_decode_subn : decode 0x8AB7 = .ok (.subn 10 11) := by decide
theorem test_decode_shl : decode 0x8ABE = .ok (.shl 10) := by decide
theorem test_decode_sneVxVy : decode 0x912F = .ok (.sneVxVy 1 2) := by decide
theorem test_decode_ldINnn : decode 0xA210 = .ok (.ldINnn 0x210) := by decide
theorem test_decode_jpV0 : decode 0xB300 = .ok (.jpV0 0x300) := by decide
theorem test_decode_rnd : decode 0xC30F = .ok (.rnd 3 0x0F) := by decide
theorem test_decode_drw : decode 0xD125 = .ok (.drw 1 2 5) := by decide
theorem test_decode_skp : decode 0xE49E = .ok (.skp 4) := by decide
theorem test_decode_sknp : decode 0xE4A1 = .ok (.sknp 4) := by decide
theorem test_decode_ldVxDt : decode 0xF307 = .ok (.ldVxDt 3) := by decide
theorem test_decode_ldVxK : decode 0xF30A = .ok (.ldVxK 3) := by decide
theorem test_decode_ldDtVx : decode 0xF315 = .ok (.ldDtVx 3) := by decide
theorem test_decode_ldStVx : decode 0xF318 = .ok (.ldStVx 3) := by decide
theorem test_decode_addIVx : decode 0xF31E = .ok (.addIVx 3) := by decide
theorem test_decode_ldFVx : decode 0xF329 = .ok (.ldFVx 3) := by decide
theorem test_decode_ldBVx : decode 0xF333 = .ok (.ldBVx 3) := by decide
theorem test_decode_ldMemVx : decode 0xF355 = .ok (.ldMemVx 3) := by decide
theorem test_decode_ldVxMem : decode 0xF365 = .ok (.ldVxMem 3) := by decide

theorem test_decode_unknown_family_0 :
    [0x0000, 0x00E1, 0x00EF, 0x01E0, 0x0123, 0x0FFF].all
      (fun w => decide (decode w = .error (.unknownOpcode w))) = true := by decide

theorem test_decode_unknown_family_8 :
    [0x8AB8, 0x8AB9, 0x8ABA, 0x8ABB, 0x8ABC, 0x8ABD, 0x8ABF].all
      (fun w => decide (decode w = .error (.unknownOpcode w))) = true := by decide

theorem test_decode_unknown_families_E_F :
    [0xE09F, 0xE00E, 0xE1A2, 0xE000, 0xF000, 0xF030, 0xF166, 0xF075, 0xFFFF].all
      (fun w => decide (decode w = .error (.unknownOpcode w))) = true := by decide

theorem test_encode_words :
    [Instr.cls, .call 0xF00, .seVxVy 1 2, .shl 10, .drw 1 2 5, .ldMemVx 3].map encode =
      [0x00E0, 0x2F00, 0x5120, 0x8A0E, 0xD125, 0xF355] := by decide

theorem test_decodeTableWord_high_byte_first : decodeTableWord 16 0x6A55 = some (.ldVxNn 10 0x55) := by decide

/-! ### Step cycle -/

-- V-STEP13: the unknown word is a no-op that ticks.
theorem test_step_unknown :
    (run { regs [(0, 3)] with dt := 2, st := 1 } 0xFFFF).map
        (fun t => (t.status, t.pc, t.dt, t.st, t.tonePending)) =
      some (.unknownOpcode 0xFFFF, 0x202, 1, 0, true) := by decide

-- V-STEP16: the last word of memory executes.
theorem test_step_last_word :
    (run { State.reset with pc := 0xFFE } 0x6000).map (fun t => (t.status, t.pc)) = some (.ok, 0x1000) := by
  decide

-- V-STEP18: the second byte of the fetch is out of range.
theorem test_step_fetch_second_byte :
    (next? (step { State.reset with pc := 0xFFF })).map (fun t => (t.status, t.pc)) =
      some (.fault (.memoryOutOfRange 0x1000), 0xFFF) := by decide

-- V-STEP21: the whole fetch is out of range.
theorem test_step_fetch_top :
    (next? (step { State.reset with pc := 0xFFFF })).map (fun t => t.mode) =
      some (.halted (.memoryOutOfRange 0xFFFF)) := by decide

-- V-STEP22, step 2: an odd PC fetches the bytes at 0x203 and 0x204.
theorem test_step_odd_pc :
    (next? (step { (State.reset.loadProgram [0x12, 0x03, 0x00, 0x6A, 0x55]).2 with pc := 0x203 })).map
        (fun t => (t.getV 10, t.pc)) =
      some (0x55, 0x205) := by decide

-- R77: with nothing loaded the first word is 0x0000.
theorem test_step_from_reset :
    (next? (step State.reset)).map (fun t => (t.status, t.pc)) = some (.unknownOpcode 0, 0x202) := by decide

/-! ### Control transfer -/

-- V-CT1
theorem test_jp : (run State.reset 0x1ABC).map State.pc = some 0xABC := by decide

-- V-CT3: a jump to itself still ticks.
theorem test_jp_self :
    (run { State.reset with dt := 4 } 0x1200).map (fun t => (t.pc, t.dt, t.status)) = some (0x200, 3, .ok) := by
  decide

-- V-CT5: the sixteenth nested call.
theorem test_call_last_entry :
    (run { State.reset with sp := 15 } 0x2300).map (fun t => (t.stack[15], t.sp, t.pc)) =
      some (0x202, 16, 0x300) := by decide

-- V-CT7
theorem test_call_full :
    (run { State.reset with sp := 16, dt := 4 } 0x2300).map (fun t => (t.mode, t.sp, t.pc, t.stack[15], t.dt)) =
      some (.halted .stackOverflow, 16, 0x200, 0, 4) := by decide

-- V-CT9
theorem test_ret :
    (run { State.reset with sp := 16, stack := State.reset.stack.set 15 0x456, pc := 0x300 } 0x00EE).map
        (fun t => (t.sp, t.pc)) =
      some (15, 0x456) := by decide

-- V-CT10
theorem test_ret_empty :
    (run State.reset 0x00EE).map (fun t => (t.status, t.sp, t.pc)) = some (.fault .stackUnderflow, 0, 0x200) := by
  decide

-- V-CT12, V-CT13
theorem test_seVxNn :
    (run (regs [(10, 0x55)]) 0x3A55).map State.pc = some 0x204 ∧
      (run (regs [(10, 0x54)]) 0x3A55).map State.pc = some 0x202 := by decide

-- V-CT14, V-CT15
theorem test_sneVxNn :
    (run (regs [(10, 0x55)]) 0x4A55).map State.pc = some 0x202 ∧
      (run (regs [(10, 0x54)]) 0x4A55).map State.pc = some 0x204 := by decide

-- V-CT17, V-CT18
theorem test_seVxVy :
    (run (regs [(1, 7), (2, 7)]) 0x5127).map State.pc = some 0x204 ∧
      (run (regs [(1, 7), (2, 8)]) 0x5120).map State.pc = some 0x202 := by decide

-- V-CT21, V-CT22
theorem test_sneVxVy :
    (run (regs [(1, 7), (2, 8)]) 0x912F).map State.pc = some 0x204 ∧
      (run (regs [(1, 7), (2, 7)]) 0x9120).map State.pc = some 0x202 := by decide

-- V-CT25, V-CT26
theorem test_jpV0 :
    (run (regs [(0, 0x02)]) 0xB2FF).map State.pc = some 0x301 ∧
      (run (regs [(0, 0xFF)]) 0xBFFF).map State.pc = some 0x10FE := by decide

/-! ### Register arithmetic and logic -/

-- V-ALU1
theorem test_ldVxNn : (run State.reset 0x6AFF).map (fun t => (t.getV 10, t.pc)) = some (0xFF, 0x202) := by decide

-- V-ALU3
theorem test_addVxNn :
    (run (regs [(0, 0xFF), (15, 7)]) 0x7001).map (fun t => (t.getV 0, t.getV 15)) = some (0, 7) := by decide

-- V-ALU5
theorem test_ldVxVy : (run (regs [(2, 0x5A)]) 0x8120).map (fun t => t.getV 1) = some 0x5A := by decide

-- V-ALU6
theorem test_or :
    (run (regs [(1, 0xF0), (2, 0x0F), (15, 9)]) 0x8121).map (fun t => (t.getV 1, t.getV 15)) =
      some (0xFF, 9) := by decide

-- V-ALU6
theorem test_and : (run (regs [(1, 0xF0), (2, 0x3C)]) 0x8122).map (fun t => t.getV 1) = some 0x30 := by decide

-- V-ALU6
theorem test_xor : (run (regs [(1, 0xF0), (2, 0x3C)]) 0x8123).map (fun t => t.getV 1) = some 0xCC := by decide

-- V-ALU9, V-ALU10c
theorem test_addVxVy :
    (run (regs [(0, 0xFF), (1, 0xFF)]) 0x8014).map (fun t => (t.getV 0, t.getV 15)) = some (0xFE, 1) ∧
      (run (regs [(0, 0xFF), (15, 1)]) 0x80F4).map (fun t => (t.getV 0, t.getV 15)) = some (0, 1) := by decide

-- V-ALU25
theorem test_addVxVy_into_VF :
    (run (regs [(15, 0xF0), (1, 0x20)]) 0x8F14).map (fun t => t.getV 15) = some 0x10 := by decide

-- V-ALU11, V-ALU13
theorem test_sub :
    (run (regs [(0, 2), (1, 7)]) 0x8015).map (fun t => (t.getV 0, t.getV 15)) = some (0xFB, 0) ∧
      (run (regs [(0, 5), (1, 5)]) 0x8015).map (fun t => (t.getV 0, t.getV 15)) = some (0, 1) := by decide

-- V-ALU14, V-ALU15
theorem test_subn :
    (run (regs [(0, 2), (1, 7)]) 0x8017).map (fun t => (t.getV 0, t.getV 15)) = some (5, 1) ∧
      (run (regs [(0, 7), (1, 2)]) 0x8017).map (fun t => (t.getV 0, t.getV 15)) = some (0xFB, 0) := by decide

-- V-ALU17, V-ALU19
theorem test_shr :
    (run (regs [(4, 0x05)]) 0x8406).map (fun t => (t.getV 4, t.getV 15)) = some (0x02, 1) ∧
      (run (regs [(1, 4), (15, 1)]) 0x81F6).map (fun t => (t.getV 1, t.getV 15)) = some (2, 0) := by decide

-- V-ALU21, V-ALU29
theorem test_shl :
    (run (regs [(0, 0xFB)]) 0x800E).map (fun t => (t.getV 0, t.getV 15)) = some (0xF6, 1) ∧
      (run (regs [(15, 0x81)]) 0x8F1E).map (fun t => t.getV 15) = some 0x02 := by decide

-- V-ALU23: whatever the draw, the mask 0 leaves 0.
theorem test_rnd_masks :
    ∃ t, exec (.rnd 3 0x00) (regs [(3, 9)]) = .next t ∧ t.getV 3 = 0 ∧ t.draws = 1 := by
  refine ⟨_, rfl, ?_, rfl⟩
  show Config.rndDraw 0 &&& 0#8 = 0#8
  exact BitVec.and_zero

/-! ### Index register and memory -/

-- V-MEM1
theorem test_ldINnn : (run State.reset 0xAFFF).map State.i = some 0xFFF := by decide

-- V-MEM4
theorem test_addIVx :
    (run { regs [(1, 2), (15, 9)] with i := 0xFFFF } 0xF11E).map (fun t => (t.i, t.getV 15)) =
      some (0x0001, 9) := by decide

-- V-MEM5, V-MEM6
theorem test_ldFVx :
    (run (regs [(0, 5)]) 0xF029).map State.i = some 0x019 ∧
      (run (regs [(0, 0xFF)]) 0xF029).map State.i = some 0x4FB := by decide

-- R203, its example
theorem test_ldBVx :
    (run { regs [(0, 234)] with i := 0x300 } 0xF033).map (fun t => t.bytesAt 0x300 4) =
      some [2, 3, 4, 0] := by decide

-- R203: with I at 0xFFE the third digit would leave memory, and nothing is written.
theorem test_ldBVx_out_of_range :
    (run { regs [(0, 234)] with i := 0xFFE } 0xF033).map (fun t => (t.mode, t.bytesAt 0xFFE 2, t.pc)) =
      some (.halted (.memoryOutOfRange 0x1000), [0, 0], 0x200) := by decide

-- V-MEM23: the store lands on the instruction itself, which completes.
theorem test_ldMemVx_over_itself :
    (run { regs [(0, 0x12)] with i := 0x200 } 0xF055).map (fun t => (t.bytesAt 0x200 2, t.pc, t.status)) =
      some ([0x12, 0x55], 0x202, .ok) := by decide

-- R204, its example
theorem test_ldMemVx :
    (run { regs [(0, 2), (1, 3), (2, 4), (3, 5)] with i := 0x303 } 0xF255).map
        (fun t => (t.bytesAt 0x303 4, t.i)) =
      some ([2, 3, 4, 0], 0x303) := by decide

-- V-MEM20: the font, V3 unchanged.
theorem test_ldVxMem :
    (run (regs [(3, 8)]) 0xF265).map (fun t => (t.getV 0, t.getV 1, t.getV 2, t.getV 3, t.i)) =
      some (0xF0, 0x90, 0x90, 8, 0) := by decide

-- V-MEM22
theorem test_ldVxMem_out_of_range :
    (run { regs [(0, 7), (1, 8)] with i := 0xFFF } 0xF165).map (fun t => (t.status, t.getV 0, t.getV 1)) =
      some (.fault (.memoryOutOfRange 0x1000), 7, 8) := by decide

/-! ### Display -/

-- V-DRW1
theorem test_cls :
    (run { State.reset with fb := (State.reset.fb.set 0 0x21).set 31 (1#64 <<< 63) } 0x00E0).map
        (fun t => (t.fb, t.redraw)) =
      some (State.reset.fb, true) := by decide

/-- A state about to draw the sprite bytes at I = 0x300. -/
def sprite (l : List (Reg × Byte)) (bytes : List Byte) : State :=
  ({ regs l with i := 0x300 } : State).store 0x300 bytes

-- V-DRW3, V-DRW6: columns wrap within the row, rows past the last are skipped.
theorem test_drw_wraps_and_clips :
    (run (sprite [(0, 62), (1, 0)] [0xFF]) 0xD011).map
        (fun t => ([62, 63, 0, 5, 6, 64].map t.fb.cell, t.getV 15)) =
      some ([true, true, true, true, false, false], 0) ∧
    (run (sprite [(0, 0), (1, 31)] [0x80, 0x80]) 0xD012).map
        (fun t => (t.fb.cell 1984, t.fb.cell 0, t.getV 15, t.redraw)) =
      some (true, false, 0, true) := by decide

-- V-DRW10: a set cell goes out, VF is 1.
theorem test_drw_collides :
    (run { sprite [] [0xC0] with fb := State.reset.fb.set 0 0x2 } 0xD011).map
        (fun t => (t.fb.cell 0, t.fb.cell 1, t.getV 15, t.i)) =
      some (true, false, 1, 0x300) := by decide

/-! ### Keys and timers -/

-- V-KT1, V-KT6
theorem test_skp :
    (run { regs [(4, 7)] with key := 0x0080 } 0xE49E).map State.pc = some 0x204 ∧
      (run (regs [(4, 16)]) 0xE49E).map (fun t => (t.status, t.pc)) =
        some (.fault (.keyIndexOutOfRange 16), 0x200) := by decide

-- V-KT3, V-KT4
theorem test_sknp :
    (run { regs [(4, 7)] with key := 0x0080 } 0xE4A1).map State.pc = some 0x202 ∧
      (run (regs [(4, 7)]) 0xE4A1).map State.pc = some 0x204 := by decide

-- V-KT8
theorem test_ldVxDt :
    (run { State.reset with dt := 9 } 0xF307).map (fun t => (t.getV 3, t.dt, t.pc)) = some (9, 8, 0x202) := by
  decide

-- V-KT10
theorem test_ldDtVx :
    (run { regs [(3, 5)] with dt := 7 } 0xF315).map State.dt = some 4 ∧
      (run { regs [(3, 0)] with dt := 7 } 0xF315).map State.dt = some 0 := by decide

-- V-KT12, V-KT13
theorem test_ldStVx :
    (run (regs [(3, 1)]) 0xF318).map (fun t => (t.st, t.tonePending)) = some (0, true) ∧
      (run { regs [(3, 0)] with st := 5 } 0xF318).map (fun t => (t.st, t.tonePending)) = some (0, false) := by
  decide

-- V-KT16
theorem test_ldVxK_waits :
    (run { State.reset with dt := 5, st := 1 } 0xF40A).map
        (fun t => (t.status, t.mode, t.pc, t.dt, t.st, t.tonePending)) =
      some (.waitingForKey, .awaitingKey, 0x200, 5, 1, false) := by decide

-- V-KT19
theorem test_ldVxK_takes_the_only_key :
    (run { State.reset with key := 0x8000 } 0xFF0A).map (fun t => (t.getV 15, t.pc, t.mode)) =
      some (15, 0x202, .running) := by decide

/-! ### Host operations -/

-- V-HOST4
theorem test_load_keeps_later_bytes :
    ((State.reset.loadProgram [1, 2, 3, 4]).2.loadProgram [0xAA]).2.bytesAt 0x200 5 =
      [0xAA, 2, 3, 4, 0] := by decide

-- V-HOST7
theorem test_reset_leaves_halted :
    ({ regs [(0, 1)] with mode := .halted .stackOverflow, status := .fault .stackOverflow } : State).resetCore =
      State.reset := by decide

-- V-HOST8
theorem test_set_key :
    ({ State.reset with mode := .awaitingKey } : State).setKey 7 true =
      { State.reset with mode := .awaitingKey, key := 0x0080 } := by decide

-- R260
theorem test_condition_codes :
    [Condition.unknownOpcode 0, .fatal .stackOverflow, .fatal .stackUnderflow, .fatal (.memoryOutOfRange 0x1000),
        .fatal (.keyIndexOutOfRange 16), .programTooLarge].map
      Condition.code = [1, 2, 3, 4, 5, 6] := by decide

-- R278, R309
theorem test_gone_wrong_and_finished :
    (run State.reset 0xFFFF).map State.goneWrong = some true ∧
      (run State.reset 0xF40A).map State.goneWrong = some false ∧
        (State.reset.withFetchWord 16 0x1200).finished = true ∧
          (State.reset.withFetchWord 16 0x1202).finished = false := by decide

/-! ### Witnesses: for each obligation with hypotheses, a case in which all of them hold -/

theorem witness_EncodeThenDecodeReturnsTheInstruction : (Instr.drw 15 15 15).wf = true := by decide

theorem witness_DecodedWordEncodesBackUpToIgnoredBits :
    decode 0x8AB6 = .ok (.shr 10) ∧ decode 0x5127 = .ok (.seVxVy 1 2) := by decide

theorem witness_DecodingFollowsTheOpcodeMap :
    decode 0xF365 = .ok (.ldVxMem 3) ∧ ∃ r ∈ opcodeMap, 0xF365#16 &&& r.mask = r.pattern := by decide

/-- One word for each disjunct, at the ends of its range. -/
theorem witness_UnknownSpaceIsExactlyTheListedWords :
    [0x0000, 0x00EF, 0x0FFF, 0x8008, 0x8FFD, 0x8FFF, 0xE000, 0xEFFF, 0xF000, 0xFFFF].all
      (fun w => decide (decode w = .error (.unknownOpcode w))) = true := by decide

theorem witness_ResetLeavesTheStatedValues :
    80 ≤ 4095 ∧ State.reset.resetCore.byteAt 80 = 0 ∧ State.reset.resetCore.byteAt 4095 = 0 ∧
      State.reset.resetCore.byteAt 79 = 0x80 := by decide

/-- The last word of memory, in both modes that fetch. -/
theorem witness_StepRunsTheDecodedInstruction (m : Mode) (h : m = .running ∨ m = .awaitingKey) :
    let s := ({ State.reset with pc := 0xFFE, mode := m } : State).withFetchWord 16 0x6A55
    (s.mode = .running ∨ s.mode = .awaitingKey) ∧ s.pc.toNat + 1 < 4096 ∧
      decode (s.byteAt s.pc.toNat ++ s.byteAt (s.pc.toNat + 1)) = .ok (.ldVxNn 10 0x55) := by
  rcases h with rfl | rfl <;> decide

theorem witness_UnknownWordIsAReportedNoOp :
    let s := ({ State.reset with pc := 0xFFE } : State).withFetchWord 16 0xFFFF
    s.mode = .running ∧ s.pc.toNat + 1 < 4096 ∧
      0xFFFF#16 = s.byteAt s.pc.toNat ++ s.byteAt (s.pc.toNat + 1) ∧ ∀ i, decode 0xFFFF#16 ≠ .ok i := by
  refine ⟨rfl, by decide, by decide, fun i h => ?_⟩
  rw [show decode 0xFFFF#16 = .error (.unknownOpcode 0xFFFF#16) by decide] at h
  cases h

/-- Both forms of the address: the second byte out of range, and both. -/
theorem witness_FetchOutsideMemoryHalts :
    State.reset.mode = .running ∧ 4096 ≤ (0xFFF#16).toNat + 1 ∧ 4096 ≤ (0x1000#16).toNat := by decide

theorem witness_HaltedStepChangesNothing :
    let s : State := { State.reset with mode := .halted .stackUnderflow, status := .fault .stackUnderflow }
    s.mode = .halted .stackUnderflow ∧ s.status = .fault .stackUnderflow := by decide

theorem witness_CompletingStepTicksOnce_ldDtVx :
    ∃ t, step ((regs [(3, 5)]).withFetchWord 16 0xF315) = .next t ∧ t.status = .ok ∧
      decode ((regs [(3, 5)]).withFetchWord 16 0xF315 |>.fetch.toOption.getD 0) = .ok (.ldDtVx 3) :=
  ⟨_, rfl, by decide, by decide⟩

theorem witness_CompletingStepTicksOnce_ldStVx :
    ∃ t, step ((regs [(3, 1)]).withFetchWord 16 0xF318) = .next t ∧ t.status = .ok ∧
      decode ((regs [(3, 1)]).withFetchWord 16 0xF318 |>.fetch.toOption.getD 0) = .ok (.ldStVx 3) :=
  ⟨_, rfl, by decide, by decide⟩

theorem witness_CompletingStepTicksOnce_others :
    ∃ t, step (({ State.reset with st := 1 } : State).withFetchWord 16 0xFFFF) = .next t ∧
      t.status = .unknownOpcode 0xFFFF ∧ t.tonePending = true :=
  ⟨_, rfl, by decide, by decide⟩

theorem witness_WaitingOrFaultingStepChangesOnlyModeAndStatus_waiting :
    ∃ t, step (State.reset.withFetchWord 16 0xF40A) = .next t ∧ t.status = .waitingForKey :=
  ⟨_, rfl, by decide⟩

theorem witness_WaitingOrFaultingStepChangesOnlyModeAndStatus_fault :
    ∃ t, step (State.reset.withFetchWord 16 0x00EE) = .next t ∧ t.status = .fault .stackUnderflow :=
  ⟨_, rfl, by decide⟩

/-- A state with a program, a call behind it and a changed byte of the font meets the invariant. -/
theorem invariant_of_a_busy_state :
    let s : State :=
      ({ (State.reset.withFetchWord 16 0x8014) with stack := State.reset.stack.set 0 0x1000, sp := 1 } : State).store 0 [0]
    s.Inv :=
  ⟨by decide, by decide, by decide, trivial, fun _ h => nomatch h⟩

theorem witness_EveryStepKeepsTheInvariant :
    ∃ s t : State, s.Inv ∧ step s = .next t ∧ t.status = .ok :=
  ⟨_, _, invariant_of_a_busy_state, rfl, by decide⟩

theorem witness_HostOperationsKeepTheInvariant : ∃ s : State, s.Inv ∧ s.mem ≠ [] :=
  ⟨_, invariant_of_a_busy_state, by decide⟩

theorem witness_OnlyDestinationRegistersChange :
    ∃ t, exec (.addVxVy 0 1) (regs [(0, 0xFF), (1, 1), (2, 9)]) = .next t ∧
      writesV (.addVxVy 0 1) 2 = false ∧ writesV (.addVxVy 0 1) 15 = true ∧ t.getV 2 = 9 :=
  ⟨_, rfl, by decide, by decide, by decide⟩

theorem witness_OnlyStoresChangeMemory_no_store :
    ∃ t, exec (.ldVxMem 15) State.reset = .next t ∧ (∀ x, Instr.ldVxMem 15 ≠ .ldBVx x) ∧
      ∀ x, Instr.ldVxMem 15 ≠ .ldMemVx x :=
  ⟨_, rfl, nofun, nofun⟩

/-- The three bytes at the top of memory, and the byte below them. -/
theorem witness_OnlyStoresChangeMemory_bcd :
    ∃ t, exec (.ldBVx 0) { regs [(0, 255)] with i := 0xFFD } = .next t ∧ 0xFFC < (0xFFD#16).toNat ∧
      t.bytesAt 0xFFC 4 = [0, 2, 5, 5] :=
  ⟨_, rfl, by decide, by decide⟩

theorem witness_OnlyStoresChangeMemory_dump :
    ∃ t, exec (.ldMemVx 1) { regs [(0, 7), (1, 8)] with i := 0x300 } = .next t ∧
      (0x300#16).toNat + 1 < 0x302 ∧ t.bytesAt 0x2FF 4 = [0, 7, 8, 0] :=
  ⟨_, rfl, by decide, by decide⟩

theorem witness_OnlyDisplayInstructionsChangeTheScreen :
    ∃ t, exec (.ldVxNn 0 1) State.reset = .next t ∧ Instr.ldVxNn 0 1 ≠ .cls ∧
      ∀ x y n, Instr.ldVxNn 0 1 ≠ .drw x y n :=
  ⟨_, rfl, nofun, nofun⟩

theorem witness_OnlyCallAndReturnTouchTheStack :
    ∃ t, exec (.jp 0x300) State.reset = .next t ∧ (∀ nnn, Instr.jp 0x300 ≠ .call nnn) ∧ Instr.jp 0x300 ≠ .ret :=
  ⟨_, rfl, nofun, nofun⟩

theorem witness_SpecialRegistersChangeOnlyByTheirInstructions :
    ∃ t, exec (.ldBVx 0) State.reset = .next t ∧ (∀ nnn, Instr.ldBVx 0 ≠ .ldINnn nnn) ∧
      (∀ x, Instr.ldBVx 0 ≠ .addIVx x) ∧ (∀ x, Instr.ldBVx 0 ≠ .ldFVx x) ∧ (∀ x, Instr.ldBVx 0 ≠ .ldDtVx x) ∧
        (∀ x, Instr.ldBVx 0 ≠ .ldStVx x) ∧ ∀ x nn, Instr.ldBVx 0 ≠ .rnd x nn :=
  ⟨_, rfl, nofun, nofun, nofun, nofun, nofun, nofun⟩

theorem witness_StepKeepsKeysAndNeverClearsHostFlags :
    ∃ s t : State, step s = .next t ∧ s.redraw = true ∧ s.tonePending = true :=
  ⟨{ State.reset with redraw := true, tonePending := true }, _, rfl, rfl, rfl⟩

/-- The first and the last free entry. -/
theorem witness_CallPushesTheNextAddress :
    State.reset.sp.val < 16 ∧ ({ State.reset with sp := 15 } : State).sp.val < 16 := by decide

theorem witness_ReturnPopsTheAddress :
    ({ State.reset with sp := 1 } : State).sp.val = (0 : Fin 16).val + 1 ∧
      ({ State.reset with sp := 16 } : State).sp.val = (15 : Fin 16).val + 1 := by decide

theorem witness_StackFaultsHalt :
    ({ State.reset with sp := 16 } : State).sp.val = 16 ∧ State.reset.sp.val = 0 := by decide

theorem witness_ReturnUndoesCall :
    ∃ t, ({ State.reset with sp := 15 } : State).sp.val < 16 ∧
      exec (.call 0x300) { State.reset with sp := 15 } = .next t ∧ t.sp = 16 :=
  ⟨_, by decide, rfl, by decide⟩

theorem witness_ResultStandsWhenVFIsTheDestination :
    ∃ a b c d e : State,
      exec (.addVxVy 15 1) (regs [(15, 0xF0), (1, 0x20)]) = .next a ∧ exec (.sub 15 1) (regs [(15, 5), (1, 7)]) = .next b ∧
        exec (.shr 15) (regs [(15, 3)]) = .next c ∧ exec (.subn 15 1) (regs [(15, 5), (1, 7)]) = .next d ∧
          exec (.shl 15) (regs [(15, 0x81)]) = .next e :=
  ⟨_, _, _, _, _, rfl, rfl, rfl, rfl, rfl⟩

theorem witness_RandomAndMasksADraw :
    ∃ t, exec (.rnd 3 0x0F) State.reset = .next t ∧ (0x0F#8).getLsbD 4 = false :=
  ⟨_, rfl, by decide⟩

/-- The last address that fits three bytes, and the first that does not. -/
theorem witness_StoreBcdWritesThreeDigits :
    (0xFFD#16).toNat + 2 < 4096 ∧ 4096 ≤ (0xFFE#16).toNat + 2 := by decide

theorem witness_RegisterDumpStoresTheRegisters :
    (0xFF0#16).toNat + (15 : Reg).val < 4096 ∧ 4096 ≤ (0xFF1#16).toNat + (15 : Reg).val ∧ (15 : Reg) ≤ 15 := by
  decide

theorem witness_RegisterLoadReadsTheRegisters :
    (0xFFF#16).toNat + (0 : Reg).val < 4096 ∧ 4096 ≤ (0x1000#16).toNat + (0 : Reg).val ∧ ¬(1 : Reg) ≤ 0 := by
  decide

/-- The whole range of rows, a sprite that ends at the last byte, and no row at all with I out of memory; a hit cell
in the last row of the screen, set before, and one the sprite does not reach. -/
theorem witness_DrawSpriteTogglesTheHitCells :
    (0xFF1#16).toNat + 15 - 1 < 4096 ∧ ((0 : Nat) = 0 ∨ (0xFFFF#16).toNat + 0 - 1 < 4096) ∧
      let s : State := { sprite [(0, 63), (1, 31)] [0x80, 0x80] with fb := State.reset.fb.set 31 (1#64 <<< 63) }
      0 < 2 ∧ 0 < 8 ∧ (s.byteAt (s.i.toNat + 0)).getLsbD (7 - 0) = true ∧ (s.getV 1).toNat + 0 < 32 ∧
        2047 = ((s.getV 1).toNat + 0) * 64 + ((s.getV 0).toNat + 0) % 64 ∧ s.fb.cell 2047 = true ∧
          ¬(s.getV 1).toNat + 1 < 32 := by decide

theorem witness_DrawingTwiceRestoresTheScreen :
    ∃ t u : State, (0 : Reg) ≠ 15 ∧ (1 : Reg) ≠ 15 ∧ exec (.drw 0 1 1) (sprite [] [0x80]) = .next t ∧
      exec (.drw 0 1 1) t = .next u ∧ (sprite [] [0x80]).fb.cell 0 = false ∧ t.fb.cell 0 = true :=
  ⟨_, _, by decide, by decide, rfl, rfl, by decide, by decide⟩

/-- The first address past memory, and the longest sprite with one byte past it. -/
theorem witness_DrawOutsideMemoryHalts :
    1 ≤ 1 ∧ 4096 ≤ (0x1000#16).toNat + 1 - 1 ∧ 4096 ≤ (0xFF2#16).toNat + 15 - 1 := by decide

/-- The last key number, and the first value that is none. -/
theorem witness_KeySkipsReadTheNamedKey :
    ((regs [(4, 15)]).getV 4).toNat < 16 ∧ 16 ≤ ((regs [(4, 16)]).getV 4).toNat := by decide

theorem witness_WaitForKeyReportsAPressedKey :
    (0x8000#16).getLsbD (15 : Reg).val = true ∧ ∀ m : Reg, (0x8000#16).getLsbD m.val = true → m = 15 := by decide

theorem witness_UnsatisfiedWaitChangesOnlyTheMode :
    let s := State.reset.withFetchWord 16 0xF40A
    (∀ k : Reg, s.key.getLsbD k.val = false) ∧ s.mode = .running ∧ s.pc.toNat + 1 < 4096 ∧
      decode (s.byteAt s.pc.toNat ++ s.byteAt (s.pc.toNat + 1)) = .ok (.ldVxK 4) := by decide

/-- The byte before, the first, the last and the byte after a block of two. -/
theorem witness_ReadReturnsTheLatestWrite :
    let s := State.reset.store 0x300 [7, 8]
    [s.byteAt 0x2FF, s.byteAt 0x300, s.byteAt 0x301, s.byteAt 0x302] = [0, 7, 8, 0] ∧
      (s.store 0x301 [9]).byteAt 0x301 = 9 := by decide

/-- A machine with another font: it reads its own glyphs, and a step and a reset keep them. -/
def blankFont : Font := Vector.replicate 16 (Vector.replicate 5 0xF0)

theorem witness_NothingChangesTheFontParameter :
    ∃ t, step ((State.resetWith blankFont).withFetchWord 16 0xF165) = .next t ∧ t.getV 1 = 0xF0 ∧
      t.font = blankFont ∧ (t.driver .reset).2.bytesAt 0x4E 3 = [0xF0, 0xF0, 0] :=
  ⟨_, rfl, by decide, by decide, by decide⟩

theorem witness_ProgramTooLargeFailsTheLoad :
    3584 < (List.replicate 3585 (0 : Byte)).length ∧ (List.replicate 3584 (0 : Byte)).length ≤ 3584 := by
  rw [List.length_replicate, List.length_replicate]
  decide

theorem witness_LoadProgramCopiesTheBytes :
    ([1, 2] : List Byte).length ≤ 3584 ∧ 1 < ([1, 2] : List Byte).length ∧
      (State.reset.loadProgram [1, 2]).2.bytesAt 0x1FF 4 = [0, 1, 2, 0] := by decide

end Sys2Proof.Tests
end

