-- ==== Sys2Proof/Proofs/Scope.lean ====
section
/-! PROOF. Scope.lean: what a step or an instruction answers, opened once, and that nothing changes the parameter
`FONT` (spec/00_scope.md R6). -/

namespace Sys2Proof.Machine

/-- A push that succeeds found room and wrote the entry above the occupied ones (spec/10_state.md R26). -/
theorem State.push_eq_ok {s t : State} {w : Word} (hpush : s.push w = .ok t) :
    ∃ h : s.sp.val < 16,
      t = { s with stack := s.stack.set s.sp.val w h, sp := ⟨s.sp.val + 1, Nat.succ_lt_succ h⟩ } := by
  by_cases h : s.sp.val < 16
  · rw [s.push_of_lt w h] at hpush
    exact ⟨h, (Except.ok.inj hpush).symm⟩
  · rw [s.push_of_full w (by omega)] at hpush
    cases hpush

/-- A pop that succeeds found an entry, answers it and frees it (R26). -/
theorem State.pop_eq_ok {s : State} {r : Word × State} (hpop : s.pop = .ok r) :
    ∃ h : 0 < s.sp.val,
      r = (s.stack[s.sp.val - 1]'(by omega), { s with sp := ⟨s.sp.val - 1, by omega⟩ }) := by
  rcases Nat.eq_zero_or_pos s.sp.val with h | h
  · rw [s.pop_of_empty h] at hpop
    cases hpop
  · rw [s.pop_of_pos h] at hpop
    exact ⟨h, (Except.ok.inj hpop).symm⟩

/-- A checked write that succeeds lies in memory and is the store (spec/20_memory.md R64). -/
theorem State.writeBytes_eq_ok {s t : State} {a : Nat} {bytes : List Byte} (hwrite : s.writeBytes a bytes = .ok t) :
    (bytes.length = 0 ∨ a + bytes.length ≤ 4096) ∧ t = s.store a bytes := by
  rw [State.writeBytes_eq] at hwrite
  split at hwrite
  · next hin => exact ⟨hin, (Except.ok.inj hwrite).symm⟩
  · cases hwrite

/-- What holds of the fault taken and of every result of the check holds of the answer of an instruction with a
check. -/
theorem State.attempt_map_induction {α : Type} {P : State → Prop} {s t : State} {r : Except Fault α} {f : α → State}
    (hok : ∀ a, r = .ok a → P (f a)) (hraise : ∀ c, r = .error c → P (s.raise c))
    (h : s.attempt (r.map f) = .next t) : P t := by
  rw [State.attempt_map] at h
  cases r with
  | ok a => exact Host.Outcome.next.inj h ▸ hok a rfl
  | error c => exact Host.Outcome.next.inj h ▸ hraise c rfl

/-- The cycle's end answers the instruction's state, ticked when its status ticks (spec/40_step_cycle.md R131). -/
theorem endCycle_eq_next {r : Result} {t : State} (h : endCycle r = .next t) :
    ∃ u, r = .next u ∧ t = if u.status.ticks then u.timerTick else u := by
  cases r with
  | next u => exact ⟨u, rfl, (Host.Outcome.next.inj h).symm⟩
  | fault c => cases h
  | refused e => cases h

/-- A decoded word is executed, an unknown one reported (R123, R127). -/
theorem runDecoded_eq_next {d : Except Reject Instr} {s t : State} (h : runDecoded d s = .next t) :
    (∃ i, d = .ok i ∧ exec i s = .next t) ∨ ∃ op, d = .error (.unknownOpcode op) ∧ t = s.reportUnknown op := by
  rcases d with ⟨⟨op⟩⟩ | i
  · exact .inr ⟨op, rfl, (Host.Outcome.next.inj h).symm⟩
  · exact .inl ⟨i, rfl, h⟩

/-- Everything a step can answer: the fault of a halted core again, the fault of the fetch, or the run of the decoded
word with its tick (R120). -/
theorem step_eq_next {s t : State} (h : step s = .next t) :
    (∃ c, s.mode = .halted c ∧ t = s.raise c) ∨
      ((s.mode = .running ∨ s.mode = .awaitingKey) ∧
        ((∃ c, s.fetch = .error c ∧ t = s.raise c) ∨
          ∃ op u, s.fetch = .ok op ∧ runDecoded (decode op) s = .next u ∧
            t = if u.status.ticks then u.timerTick else u)) := by
  have awake (hm : s.mode = .running ∨ s.mode = .awaitingKey) :
      (∃ c, s.fetch = .error c ∧ t = s.raise c) ∨
        ∃ op u, s.fetch = .ok op ∧ runDecoded (decode op) s = .next u ∧
          t = if u.status.ticks then u.timerTick else u := by
    rw [step_of_notHalted s hm] at h
    split at h
    · next c hf => exact .inl ⟨c, hf, (Host.Outcome.next.inj h).symm⟩
    · next op hf =>
      obtain ⟨u, hu, ht⟩ := endCycle_eq_next h
      exact .inr ⟨op, u, hf, hu, ht⟩
  cases hm : s.mode with
  | halted c =>
    rw [step_eq, hm] at h
    exact .inl ⟨c, rfl, (Host.Outcome.next.inj h).symm⟩
  | running => exact .inr ⟨.inl rfl, awake (.inl hm)⟩
  | awaitingKey => exact .inr ⟨.inr rfl, awake (.inr hm)⟩

/-- What holds of the fault taken, of every instruction's answer and of the reported no-op, and is kept by the tick,
holds after the step (R120). -/
theorem step_induction {P : State → Prop} {s t : State} (hraise : ∀ c, P (s.raise c))
    (hexec : ∀ i u, exec i s = .next u → P u) (hunknown : ∀ op, P (s.reportUnknown op))
    (htick : ∀ u, P u → P u.timerTick) (h : step s = .next t) : P t := by
  obtain ⟨c, -, rfl⟩ | ⟨-, ⟨c, -, rfl⟩ | ⟨op, u, -, hrun, rfl⟩⟩ := step_eq_next h
  · exact hraise c
  · exact hraise c
  · have hu : P u := by
      obtain ⟨i, -, hi⟩ | ⟨w, -, rfl⟩ := runDecoded_eq_next hrun
      · exact hexec i u hi
      · exact hunknown w
    split
    · exact htick u hu
    · exact hu

/-- Wait-for-key takes the pick, or waits when no key is pressed (spec/45_keys_timers.md R243). -/
theorem execLdVxK_eq_next {x : Reg} {s t : State} (h : execLdVxK x s = .next t) :
    (∃ k, keyPick s.key = some k ∧ t = (s.setV x (regByte k)).advance) ∨
      (keyPick s.key = none ∧ t = s.awaitKey) := by
  unfold execLdVxK at h
  split at h
  · next k hk => exact .inl ⟨k, hk, (Host.Outcome.next.inj h).symm⟩
  · next hk => exact .inr ⟨hk, (Host.Outcome.next.inj h).symm⟩

/-- An instruction keeps `FONT`: a completed one writes other fields only, a fault and a wait write mode and status. -/
theorem exec_font {i : Instr} {s t : State} (h : exec i s = .next t) : t.font = s.font := by
  have checked {α : Type} {r : Except Fault α} {f : α → State} (h : s.attempt (r.map f) = .next t)
      (hok : ∀ a, r = .ok a → (f a).font = s.font) : t.font = s.font :=
    State.attempt_map_induction (P := fun u => u.font = s.font) hok (fun c _ => s.raise_font c) h
  cases i with
  | ret => exact checked h fun r hpop => by obtain ⟨-, rfl⟩ := State.pop_eq_ok hpop; rfl
  | call => exact checked h fun u hpush => by obtain ⟨-, rfl⟩ := State.push_eq_ok hpush; rfl
  | ldBVx | ldMemVx => exact checked h fun u hwrite => by obtain ⟨-, rfl⟩ := State.writeBytes_eq_ok hwrite; rfl
  | ldVxMem => exact checked h fun bytes _ => by rw [State.advance_eq, State.complete_font, State.loadRegs_font]
  | drw | skp | sknp => exact checked h fun _ _ => rfl
  | ldVxK => obtain ⟨k, -, rfl⟩ | ⟨-, rfl⟩ := execLdVxK_eq_next h <;> rfl
  | _ => exact Host.Outcome.next.inj h ▸ rfl

/-- A step keeps `FONT`. -/
theorem step_font {s t : State} (h : step s = .next t) : t.font = s.font :=
  step_induction (P := fun u => u.font = s.font) s.raise_font (fun _ _ => exec_font) s.reportUnknown_font
    (fun u hu => (u.timerTick_font).trans hu) h

/-- A load keeps `FONT`, whether it is refused or stores the program. -/
@[simp] theorem State.loadProgram_font (s : State) (bytes : List Byte) : (s.loadProgram bytes).2.font = s.font := by
  unfold State.loadProgram
  split
  · rfl
  · exact s.store_font _ bytes

/-- A host operation keeps `FONT`; reset makes the machine again with the font it has. -/
theorem State.driver_font (s : State) (op : DriverOp) : (s.driver op).2.font = s.font := by
  cases op with
  | loadProgram bytes => exact s.loadProgram_font bytes
  | reset | setKey | consumeRedrawFlag | pendingTone | framebuffer | readMode | readStatus => rfl

/-- Settles O26: one frame lemma each for an instruction, a step and a host operation. -/
theorem nothingChangesTheFontParameter : Obligations.NothingChangesTheFontParameter := fun s _ =>
  ⟨⟨fun _ => exec_font, step_font⟩, s.driver_font⟩

end Sys2Proof.Machine
end

