-- ==== Sys2Proof/Proofs/State.lean ====
section
/-! PROOF. State.lean: which fields an instruction may write (spec/10_state.md R37), which V registers (R20, R21), that
mode and status are no input of a step (R34, R35), and the invariant. -/

namespace Sys2Proof.Machine

/-! ### The invariant (spec/10_state.md R23, R25, R34) -/

/-- The record of an access from a 16-bit address on is the lowest address out of range (spec/60_exceptions.md R264). -/
theorem recorded_memoryOutOfRange (s : State) (a : Word) :
    (Fault.memoryOutOfRange (max a.toNat 4096)).recorded s :=
  ⟨le_max_right _ _, max_lt a.isLt (by decide)⟩

/-- Of the state, a record reads SP alone. -/
theorem Fault.recorded_congr {s t : State} {c : Fault} (hsp : t.sp = s.sp) (hc : c.recorded s) : c.recorded t := by
  cases c with
  | stackOverflow | stackUnderflow => exact (congrArg Fin.val hsp).trans hc
  | memoryOutOfRange | keyIndexOutOfRange => exact hc

theorem State.recorded_of_fetch_eq_error {s : State} {c : Fault} (hfetch : s.fetch = .error c) : c.recorded s := by
  rw [State.fetch_eq] at hfetch
  split at hfetch
  · cases hfetch
  · exact Except.error.inj hfetch ▸ recorded_memoryOutOfRange s s.pc

theorem State.recorded_of_readBytes_eq_error {s : State} {len : Nat} {c : Fault}
    (hread : s.readBytes s.base len = .error c) : c.recorded s := by
  rw [State.readBytes_eq] at hread
  split at hread
  · cases hread
  · exact Except.error.inj hread ▸ recorded_memoryOutOfRange s s.i

theorem State.recorded_of_writeBytes_eq_error {s : State} {bytes : List Byte} {c : Fault}
    (hwrite : s.writeBytes s.base bytes = .error c) : c.recorded s := by
  rw [State.writeBytes_eq] at hwrite
  split at hwrite
  · cases hwrite
  · exact Except.error.inj hwrite ▸ recorded_memoryOutOfRange s s.i

theorem State.recorded_of_push_eq_error {s : State} {w : Word} {c : Fault} (hpush : s.push w = .error c) :
    c.recorded s := by
  by_cases h : s.sp.val < 16
  · rw [s.push_of_lt w h] at hpush
    cases hpush
  · have hfull : s.sp.val = 16 := by omega
    rw [s.push_of_full w hfull] at hpush
    exact Except.error.inj hpush ▸ hfull

theorem State.recorded_of_pop_eq_error {s : State} {c : Fault} (hpop : s.pop = .error c) : c.recorded s := by
  rcases Nat.eq_zero_or_pos s.sp.val with h | h
  · rw [s.pop_of_empty h] at hpop
    exact Except.error.inj hpop ▸ h
  · rw [s.pop_of_pos h] at hpop
    cases hpop

theorem State.recorded_of_keyDown_eq_error {s : State} {b : Byte} {c : Fault} (hkey : s.keyDown b = .error c) :
    c.recorded s := by
  rcases Nat.lt_or_ge b.toNat 16 with h | h
  · rw [s.keyDown_of_lt b h] at hkey
    cases hkey
  · rw [s.keyDown_of_le b h] at hkey
    exact Except.error.inj hkey ▸ h

/-- A fault the state explains is taken into a state of the invariant (spec/60_exceptions.md R269). -/
theorem State.Inv.raise {s : State} {c : Fault} (hs : s.Inv) (hc : c.recorded s) : (s.raise c).Inv where
  memory := hs.memory
  pcBound := hs.pcBound
  stackBound := hs.stackBound
  agrees := rfl
  recorded _ hd := Mode.halted.inj hd ▸ Fault.recorded_congr (s.raise_sp c) hc

theorem State.Inv.awaitKey {s : State} (hs : s.Inv) : s.awaitKey.Inv where
  memory := hs.memory
  pcBound := hs.pcBound
  stackBound := hs.stackBound
  agrees := trivial
  recorded _ hd := nomatch hd

theorem State.Inv.timerTick {s : State} (hs : s.Inv) : s.timerTick.Inv where
  memory := hs.memory
  pcBound := hs.pcBound
  stackBound := hs.stackBound
  agrees := hs.agrees
  recorded c hc := Fault.recorded_congr s.timerTick_sp (hs.recorded c hc)

/-- An instruction completes within the invariant when memory, stack and next PC are in bounds. -/
theorem State.inv_complete {s : State} {p : Word} (hmem : Memory.wf s.font s.mem)
    (hstack : ∀ k : Fin 16, s.stack[k].toNat ≤ 0x1000) (hp : p.toNat ≤ 0x10FE) : (s.complete p).Inv where
  memory := hmem
  pcBound := hp
  stackBound := hstack
  agrees := trivial
  recorded _ hd := nomatch hd

theorem State.Inv.reportUnknown {s : State} {op : Word} (hs : s.Inv) (hp : (s.pc + 2).toNat ≤ 0x10FE) :
    (s.reportUnknown op).Inv where
  memory := hs.memory
  pcBound := hp
  stackBound := hs.stackBound
  agrees := trivial
  recorded _ hd := nomatch hd

/-- An opcode is fetched from within memory (spec/20_memory.md R65). -/
theorem State.pc_of_fetch_eq_ok {s : State} {op : Word} (hfetch : s.fetch = .ok op) : s.pc.toNat + 2 ≤ 4096 := by
  rw [State.fetch_eq] at hfetch
  split at hfetch
  · assumption
  · cases hfetch

/-- The next instruction's address, from an instruction in memory (spec/10_state.md R23). -/
theorem pc_add_two_le {pc : Word} (hpc : pc.toNat + 2 ≤ 4096) : (pc + 2).toNat ≤ 0x1000 := by
  bv_omega

theorem pc_skip_le {pc : Word} (hpc : pc.toNat + 2 ≤ 4096) (b : Bool) :
    (if b then pc + 4 else pc + 2).toNat ≤ 0x10FE := by
  cases b <;> simp only [if_true, Bool.false_eq_true, if_false] <;> bv_omega

theorem addrWord_le (nnn : Addr) : (addrWord nnn).toNat ≤ 0xFFF := by
  have := nnn.isLt
  simp only [addrWord, BitVec.truncate_eq_setWidth, BitVec.toNat_setWidth]
  omega

/-- The farthest target of jump-with-offset (spec/10_state.md R23). -/
theorem addrWord_add_byteWord_le (nnn : Addr) (b : Byte) : (addrWord nnn + byteWord b).toNat ≤ 0x10FE := by
  have haddr := addrWord_le nnn
  have hbyte : (byteWord b).toNat ≤ 0xFF := by
    have := b.isLt
    simp only [byteWord, BitVec.truncate_eq_setWidth, BitVec.toNat_setWidth]
    omega
  bv_omega

/-- A push of an address in bounds keeps every stack entry in bounds. -/
theorem stack_set_le {stack : Vector Word 16} (hstack : ∀ k : Fin 16, stack[k].toNat ≤ 0x1000) {n : Nat}
    (hn : n < 16) {w : Word} (hw : w.toNat ≤ 0x1000) (k : Fin 16) : (stack.set n w hn)[k].toNat ≤ 0x1000 := by
  simp only [Fin.getElem_fin, Vector.getElem_set]
  split
  · exact hw
  · exact hstack k

/-- An instruction fetched from within memory keeps the invariant: a check that fails is explained, CALL pushes and
the stores write within bounds, and the others leave memory and stack alone and move PC within bounds. -/
theorem exec_inv {i : Instr} {s t : State} (hs : s.Inv) (hpc : s.pc.toNat + 2 ≤ 4096) (h : exec i s = .next t) :
    t.Inv := by
  have hnext : (s.pc + 2).toNat ≤ 0x10FE := (pc_add_two_le hpc).trans (by decide)
  have kept {u : State} {p : Word} (hp : p.toNat ≤ 0x10FE) (hfont : u.font = s.font) (hmem : u.mem = s.mem)
      (hstack : u.stack = s.stack) : (u.complete p).Inv :=
    State.inv_complete (hfont ▸ hmem ▸ hs.memory) (hstack ▸ hs.stackBound) hp
  have unchecked {u : State} {p : Word} (h : Host.Outcome.next (u.complete p) = (.next t : Result))
      (hinv : (u.complete p).Inv) : t.Inv := Host.Outcome.next.inj h ▸ hinv
  have checked {α : Type} {r : Except Fault α} {f : α → State} (h : s.attempt (r.map f) = .next t)
      (hok : ∀ a, r = .ok a → (f a).Inv) (hfault : ∀ c, r = .error c → c.recorded s) : t.Inv :=
    State.attempt_map_induction hok (fun c hc => hs.raise (hfault c hc)) h
  have stored {bytes : List Byte} (h : s.attempt ((s.writeBytes s.base bytes).map State.advance) = .next t)
      (hne : bytes.length ≠ 0) : t.Inv :=
    checked h (fun u hwrite => by
      obtain ⟨hin, rfl⟩ := State.writeBytes_eq_ok hwrite
      exact State.inv_complete (s.wf_store _ _ hs.memory (hin.resolve_left hne)) hs.stackBound hnext)
      fun _ => State.recorded_of_writeBytes_eq_error
  cases i with
  | ret =>
    refine checked h (fun r hpop => ?_) fun _ => State.recorded_of_pop_eq_error
    obtain ⟨-, rfl⟩ := State.pop_eq_ok hpop
    exact kept ((hs.stackBound ⟨s.sp.val - 1, by omega⟩).trans (by decide)) rfl rfl rfl
  | call nnn =>
    refine checked h (fun u hpush => ?_) fun _ => State.recorded_of_push_eq_error
    obtain ⟨hroom, rfl⟩ := State.push_eq_ok hpush
    exact State.inv_complete hs.memory (stack_set_le hs.stackBound hroom (pc_add_two_le hpc))
      ((addrWord_le nnn).trans (by decide))
  | ldBVx x => exact stored h (by simp [bcdDigits])
  | ldMemVx x => exact stored h (by simp [State.firstRegs])
  | drw =>
    exact checked h (fun _ _ => kept hnext rfl rfl rfl) fun _ => State.recorded_of_readBytes_eq_error
  | ldVxMem =>
    refine checked h (fun bytes _ => ?_) fun _ => State.recorded_of_readBytes_eq_error
    rw [State.advance_eq, State.loadRegs_pc]
    exact kept hnext (s.loadRegs_font bytes) (s.loadRegs_mem bytes) (s.loadRegs_stack bytes)
  | skp | sknp =>
    exact checked h (fun _ _ => kept (pc_skip_le hpc _) rfl rfl rfl) fun _ => State.recorded_of_keyDown_eq_error
  | ldVxK =>
    obtain ⟨k, -, rfl⟩ | ⟨-, rfl⟩ := execLdVxK_eq_next h
    · exact kept hnext rfl rfl rfl
    · exact hs.awaitKey
  | jp nnn => exact unchecked h (kept ((addrWord_le nnn).trans (by decide)) rfl rfl rfl)
  | jpV0 nnn => exact unchecked h (kept (addrWord_add_byteWord_le nnn _) rfl rfl rfl)
  | seVxNn | sneVxNn | seVxVy | sneVxVy => exact unchecked h (kept (pc_skip_le hpc _) rfl rfl rfl)
  | _ => exact unchecked h (kept hnext rfl rfl rfl)

/-- Settles O17, by the exits of a step: a fault the state explains, an instruction, or the reported no-op, and the
tick. -/
theorem everyStepKeepsTheInvariant : Obligations.EveryStepKeepsTheInvariant := by
  intro s t hs h
  obtain ⟨c, hmode, rfl⟩ | ⟨-, ⟨c, hfetch, rfl⟩ | ⟨op, u, hfetch, hrun, rfl⟩⟩ := step_eq_next h
  · exact hs.raise (hs.recorded c hmode)
  · exact hs.raise (State.recorded_of_fetch_eq_error hfetch)
  · have hpc := State.pc_of_fetch_eq_ok hfetch
    have hu : u.Inv := by
      obtain ⟨i, -, hi⟩ | ⟨w, -, rfl⟩ := runDecoded_eq_next hrun
      · exact exec_inv hs hpc hi
      · exact hs.reportUnknown ((pc_add_two_le hpc).trans (by decide))
    split
    · exact hu.timerTick
    · exact hu

/-! ### Which fields an instruction may write (spec/10_state.md R37) -/

/-- `s` with PC, mode and status and the fields that `i` may write taken from `t`: the columns "written by" of
spec/10_state.md R37, and V, memory, the framebuffer, the stack and the count of draws beside them. -/
def State.takeWrites (s : State) (i : Instr) (t : State) : State :=
  let u : State := { s with pc := t.pc, mode := t.mode, status := t.status }
  match i with
  | .jp _ | .seVxNn _ _ | .sneVxNn _ _ | .seVxVy _ _ | .sneVxVy _ _ | .jpV0 _ | .skp _ | .sknp _ => u
  | .ldVxNn _ _ | .addVxNn _ _ | .ldVxVy _ _ | .or _ _ | .and _ _ | .xor _ _ | .addVxVy _ _ | .sub _ _ | .shr _
  | .subn _ _ | .shl _ | .ldVxDt _ | .ldVxK _ | .ldVxMem _ => { u with v := t.v }
  | .rnd _ _ => { u with v := t.v, draws := t.draws }
  | .drw _ _ _ => { u with v := t.v, fb := t.fb, redraw := t.redraw }
  | .cls => { u with fb := t.fb, redraw := t.redraw }
  | .ret => { u with sp := t.sp }
  | .call _ => { u with sp := t.sp, stack := t.stack }
  | .ldINnn _ | .addIVx _ | .ldFVx _ => { u with i := t.i }
  | .ldDtVx _ => { u with dt := t.dt }
  | .ldStVx _ => { u with st := t.st }
  | .ldBVx _ | .ldMemVx _ => { u with mem := t.mem }

/-- An instruction changes no field but PC, mode, status and those it may write. -/
theorem exec_eq_takeWrites {i : Instr} {s t : State} (h : exec i s = .next t) : t = s.takeWrites i t := by
  have hraise (c : Fault) : s.raise c = s.takeWrites i (s.raise c) := by cases i <;> rfl
  have checked {α : Type} {r : Except Fault α} {f : α → State} (h : s.attempt (r.map f) = .next t)
      (hok : ∀ a, r = .ok a → f a = s.takeWrites i (f a)) : t = s.takeWrites i t :=
    State.attempt_map_induction (P := fun u => u = s.takeWrites i u) hok (fun c _ => hraise c) h
  cases i with
  | ret => exact checked h fun r hpop => by obtain ⟨-, rfl⟩ := State.pop_eq_ok hpop; rfl
  | call => exact checked h fun u hpush => by obtain ⟨-, rfl⟩ := State.push_eq_ok hpush; rfl
  | ldBVx | ldMemVx => exact checked h fun u hwrite => by obtain ⟨-, rfl⟩ := State.writeBytes_eq_ok hwrite; rfl
  | ldVxMem => exact checked h fun bytes _ => by rw [State.advance_eq]; rfl
  | drw | skp | sknp => exact checked h fun _ _ => rfl
  | ldVxK => obtain ⟨k, -, rfl⟩ | ⟨-, rfl⟩ := execLdVxK_eq_next h <;> rfl
  | _ => exact Host.Outcome.next.inj h ▸ rfl

section
variable {i : Instr} {s t : State} (h : exec i s = .next t)
include h

theorem exec_key : t.key = s.key := by
  rw [exec_eq_takeWrites h]
  cases i <;> rfl

theorem exec_tonePending : t.tonePending = s.tonePending := by
  rw [exec_eq_takeWrites h]
  cases i <;> rfl

theorem exec_i (hset : ∀ nnn, i ≠ .ldINnn nnn) (hadd : ∀ x, i ≠ .addIVx x) (hfont : ∀ x, i ≠ .ldFVx x) :
    t.i = s.i := by
  rw [exec_eq_takeWrites h]
  cases i with
  | ldINnn nnn => exact absurd rfl (hset nnn)
  | addIVx x => exact absurd rfl (hadd x)
  | ldFVx x => exact absurd rfl (hfont x)
  | _ => rfl

theorem exec_dt (hi : ∀ x, i ≠ .ldDtVx x) : t.dt = s.dt := by
  rw [exec_eq_takeWrites h]
  cases i with
  | ldDtVx x => exact absurd rfl (hi x)
  | _ => rfl

theorem exec_st (hi : ∀ x, i ≠ .ldStVx x) : t.st = s.st := by
  rw [exec_eq_takeWrites h]
  cases i with
  | ldStVx x => exact absurd rfl (hi x)
  | _ => rfl

theorem exec_draws (hi : ∀ x nn, i ≠ .rnd x nn) : t.draws = s.draws := by
  rw [exec_eq_takeWrites h]
  cases i with
  | rnd x nn => exact absurd rfl (hi x nn)
  | _ => rfl

theorem exec_screen (hcls : i ≠ .cls) (hdrw : ∀ x y n, i ≠ .drw x y n) : t.fb = s.fb ∧ t.redraw = s.redraw := by
  rw [exec_eq_takeWrites h]
  cases i with
  | cls => exact absurd rfl hcls
  | drw x y n => exact absurd rfl (hdrw x y n)
  | _ => exact ⟨rfl, rfl⟩

theorem exec_stack (hcall : ∀ nnn, i ≠ .call nnn) : t.stack = s.stack := by
  rw [exec_eq_takeWrites h]
  cases i with
  | call nnn => exact absurd rfl (hcall nnn)
  | _ => rfl

theorem exec_sp (hcall : ∀ nnn, i ≠ .call nnn) (hret : i ≠ .ret) : t.sp = s.sp := by
  rw [exec_eq_takeWrites h]
  cases i with
  | call nnn => exact absurd rfl (hcall nnn)
  | ret => exact absurd rfl hret
  | _ => rfl

/-- CLS and DRW raise the redraw flag (spec/10_state.md R32), a fault of DRW and the others leave it. -/
theorem exec_redraw_of_redraw (hs : s.redraw = true) : t.redraw = true := by
  cases i with
  | cls => exact Host.Outcome.next.inj h ▸ rfl
  | drw => exact State.attempt_map_induction (P := fun u => u.redraw = true) (fun _ _ => rfl) (fun _ _ => hs) h
  | _ => exact (exec_screen h nofun nofun).2.trans hs

end

/-- Settles O22, from the fields CLS and DRW alone may write. -/
theorem onlyDisplayInstructionsChangeTheScreen : Obligations.OnlyDisplayInstructionsChangeTheScreen :=
  fun _ _ _ => exec_screen

/-- Settles O23, from the fields CALL and RET alone may write. -/
theorem onlyCallAndReturnTouchTheStack : Obligations.OnlyCallAndReturnTouchTheStack :=
  fun _ _ _ h hcall => ⟨exec_stack h hcall, exec_sp h hcall⟩

/-- Settles O24, one frame lemma for each field. -/
theorem specialRegistersChangeOnlyByTheirInstructions : Obligations.SpecialRegistersChangeOnlyByTheirInstructions :=
  fun _ _ _ h => ⟨exec_key h, exec_tonePending h, exec_i h, exec_dt h, exec_st h, exec_draws h⟩

/-- Settles O25: no exit of a step writes the keys; CLS and DRW only set the redraw flag, the tick only sets the tone
flag. -/
theorem stepKeepsKeysAndNeverClearsHostFlags : Obligations.StepKeepsKeysAndNeverClearsHostFlags := by
  intro s t h
  refine ⟨?_, fun hredraw => ?_, fun htone => ?_⟩
  · exact step_induction (P := fun u => u.key = s.key) s.raise_key (fun _ _ => exec_key) s.reportUnknown_key
      (fun u hu => u.timerTick_key.trans hu) h
  · exact step_induction (P := fun u => u.redraw = true) (fun _ => hredraw)
      (fun _ _ hi => exec_redraw_of_redraw hi hredraw) (fun _ => hredraw) (fun _ hu => hu) h
  · exact step_induction (P := fun u => u.tonePending = true) (fun _ => htone)
      (fun _ _ hi => (exec_tonePending hi).trans htone) (fun _ => htone)
      (fun u hu => by rw [State.timerTick_tonePending, hu, Bool.true_or]) h

/-! ### The V registers (spec/10_state.md R20, R21) -/

@[simp] theorem State.getV_complete (s : State) (p : Word) (k : Reg) : (s.complete p).getV k = s.getV k := rfl

/-- A register keeps its value where the register file is kept. -/
theorem State.getV_congr {s t : State} (hv : t.v = s.v) (k : Reg) : t.getV k = s.getV k := by
  simp only [State.getV, hv]

theorem State.getV_setV_of_beq_false {x k : Reg} (hk : (k == x) = false) (s : State) (b : Byte) :
    (s.setV x b).getV k = s.getV k :=
  s.getV_setV_other x k b (ne_of_beq_false hk)

/-- A flag writer keeps every register but its destination and VF. -/
theorem State.getV_setFlagThenV {x k : Reg} (hk : (k == x || k == vF) = false) (s : State) (flag b : Byte) :
    (s.setFlagThenV flag x b).getV k = s.getV k := by
  obtain ⟨hx, hf⟩ := Bool.or_eq_false_iff.1 hk
  rw [State.setFlagThenV_eq, State.getV_setV_of_beq_false hx, State.getV_setV_of_beq_false hf]

/-- A register load keeps the registers above those it has bytes for (spec/43_index_memory.md R205). -/
theorem State.getV_loadRegs_of_length_le (s : State) {bytes : List Byte} {k : Reg} (hk : bytes.length ≤ k.val) :
    (s.loadRegs bytes).getV k = s.getV k := by
  simp [State.getV, List.getElem?_eq_none hk]

theorem State.length_of_readBytes_eq_ok {s : State} {a len : Nat} {bytes : List Byte}
    (hread : s.readBytes a len = .ok bytes) : bytes.length = len := by
  rw [State.readBytes_eq] at hread
  split at hread
  · exact Except.ok.inj hread ▸ s.length_bytesAt a len
  · cases hread

/-- Settles O20: the writers of R20 and R21 by the register write they make, the others because they leave the
register file as it is. -/
theorem onlyDestinationRegistersChange : Obligations.OnlyDestinationRegistersChange := by
  intro i s t k h hk
  have checked {α : Type} {r : Except Fault α} {f : α → State} (h : s.attempt (r.map f) = .next t)
      (hok : ∀ a, r = .ok a → (f a).getV k = s.getV k) : t.getV k = s.getV k :=
    State.attempt_map_induction (P := fun u => u.getV k = s.getV k) hok (fun _ _ => rfl) h
  cases i with
  | ldVxNn | addVxNn | ldVxVy | or | and | xor | ldVxDt =>
    exact Host.Outcome.next.inj h ▸ s.getV_setV_of_beq_false hk _
  | rnd => exact Host.Outcome.next.inj h ▸ s.drawByte.2.getV_setV_of_beq_false hk _
  | addVxVy | sub | shr | subn | shl => exact Host.Outcome.next.inj h ▸ s.getV_setFlagThenV hk _ _
  | ldVxK =>
    obtain ⟨key, -, rfl⟩ | ⟨-, rfl⟩ := execLdVxK_eq_next h
    · exact s.getV_setV_of_beq_false hk _
    · rfl
  | drw => exact checked h fun _ _ => State.getV_setV_of_beq_false hk _ _
  | ldVxMem x =>
    refine checked h fun bytes hread => ?_
    rw [State.advance_eq, State.getV_complete]
    refine s.getV_loadRegs_of_length_le ?_
    rw [State.length_of_readBytes_eq_ok hread]
    exact Fin.lt_def.1 (not_le.1 (of_decide_eq_false hk))
  | _ => exact State.getV_congr (by rw [exec_eq_takeWrites h]; rfl) k

/-! ### Mode and status are no input of an instruction (spec/10_state.md R34, R35) -/

/-- An instruction does the same whatever the mode and the last status: each of its ends writes both. -/
theorem exec_ignores_modeAndStatus (i : Instr) (s : State) (m : Mode) (e : Status) :
    exec i { s with mode := m, status := e } = exec i s := by
  have attempt_ignores (r : Except Fault State) :
      State.attempt { s with mode := m, status := e } r = s.attempt r := by cases r <;> rfl
  have write_ignores (a : Nat) (bytes : List Byte) :
      (State.writeBytes { s with mode := m, status := e } a bytes).map State.advance =
        (s.writeBytes a bytes).map State.advance := by
    unfold State.writeBytes
    cases rangeFault a bytes.length <;> rfl
  cases i with
  | drw | ldVxMem | skp | sknp => exact attempt_ignores _
  | ret =>
    refine (attempt_ignores _).trans (congrArg s.attempt ?_)
    unfold State.pop
    split <;> rfl
  | call =>
    refine (attempt_ignores _).trans (congrArg s.attempt ?_)
    unfold State.push
    split <;> rfl
  | ldBVx | ldMemVx => exact (attempt_ignores _).trans (congrArg s.attempt (write_ignores _ _))
  | ldVxK x =>
    show execLdVxK x _ = execLdVxK x s
    unfold execLdVxK
    cases keyPick s.key <;> rfl
  | _ => rfl

theorem runDecoded_ignores_modeAndStatus (d : Except Reject Instr) (s : State) (m : Mode) (e : Status) :
    runDecoded d { s with mode := m, status := e } = runDecoded d s := by
  rcases d with ⟨⟨op⟩⟩ | i
  · rfl
  · exact exec_ignores_modeAndStatus i s m e

/-- Settles O16: both steps fetch the word that `s` fetches, and the run of a decoded word ignores mode and status. -/
theorem stepIgnoresWaitingAndTheLastStatus : Obligations.StepIgnoresWaitingAndTheLastStatus := by
  intro s e e'
  have hfetch (m : Mode) (e : Status) : State.fetch { s with mode := m, status := e } = s.fetch := rfl
  rw [step_of_notHalted _ (.inr rfl), step_of_notHalted _ (.inl rfl), hfetch .awaitingKey e, hfetch .running e']
  cases s.fetch with
  | error c => rfl
  | ok op =>
    have hrun (m : Mode) (e : Status) := runDecoded_ignores_modeAndStatus (decode op) s m e
    exact congrArg endCycle ((hrun .awaitingKey e).trans (hrun .running e').symm)

end Sys2Proof.Machine
end

