-- ==== Sys2Proof/Proofs/Memory.lean ====
section
/-! PROOF. Memory.lean: a read returns the latest write to its address (spec/20_memory.md R64, R70), and which bytes
an instruction may change (R60, R69). -/

namespace Sys2Proof.Machine

/-- A byte below or above a stored block reads as before. -/
theorem State.byteAt_store_of_outside (s : State) {a b : Nat} {bytes : List Byte}
    (hb : b < a ∨ a + bytes.length ≤ b) : (s.store a bytes).byteAt b = s.byteAt b := by
  rw [State.byteAt_store, if_neg (by omega)]

/-- A byte within a stored block reads as the block has it. -/
theorem State.byteAt_store_of_inside (s : State) {a b : Nat} {bytes : List Byte} (hab : a ≤ b)
    (hb : b - a < bytes.length) : (s.store a bytes).byteAt b = bytes[b - a] := by
  rw [State.byteAt_store, if_pos (by omega), List.getD_eq_getElem bytes 0 hb]

/-- A checked store of `bytes` from I on, stored or faulted, keeps every byte outside the block. -/
theorem State.byteAt_of_attempt_writeBytes {s t : State} {bytes : List Byte} {b : Nat}
    (h : s.attempt ((s.writeBytes s.base bytes).map State.advance) = .next t)
    (hb : b < s.i.toNat ∨ s.i.toNat + bytes.length ≤ b) : t.byteAt b = s.byteAt b := by
  refine State.attempt_map_induction (P := fun u => u.byteAt b = s.byteAt b) (fun u hwrite => ?_)
    (fun c _ => s.raise_byteAt c b) h
  obtain ⟨-, rfl⟩ := State.writeBytes_eq_ok hwrite
  rw [State.advance_eq, State.complete_byteAt]
  exact s.byteAt_store_of_outside hb

@[simp] theorem length_bcdDigits (b : Byte) : (bcdDigits b).length = 3 := rfl

@[simp] theorem State.length_firstRegs (s : State) (x : Reg) : (s.firstRegs x).length = x.val + 1 := by
  simp [State.firstRegs]

section
variable {i : Instr} {s t : State} {x : Reg}

theorem exec_mem (h : exec i s = .next t) (hbcd : ∀ x, i ≠ .ldBVx x) (hdump : ∀ x, i ≠ .ldMemVx x) :
    t.mem = s.mem := by
  rw [exec_eq_takeWrites h]
  cases i with
  | ldBVx x => exact absurd rfl (hbcd x)
  | ldMemVx x => exact absurd rfl (hdump x)
  | _ => rfl

/-- Store-bcd writes three bytes from I on (spec/43_index_memory.md R203). -/
theorem exec_ldBVx_byteAt (h : exec (.ldBVx x) s = .next t) {b : Nat} (hb : b < s.i.toNat ∨ s.i.toNat + 2 < b) :
    t.byteAt b = s.byteAt b :=
  State.byteAt_of_attempt_writeBytes (bytes := bcdDigits (s.getV x)) h (by rw [length_bcdDigits]; omega)

/-- Register-dump writes `x + 1` bytes from I on (spec/43_index_memory.md R204). -/
theorem exec_ldMemVx_byteAt (h : exec (.ldMemVx x) s = .next t) {b : Nat}
    (hb : b < s.i.toNat ∨ s.i.toNat + x.val < b) : t.byteAt b = s.byteAt b :=
  State.byteAt_of_attempt_writeBytes (bytes := s.firstRegs x) h (by rw [State.length_firstRegs]; omega)

end

/-- Settles O21: the two stores by the block each writes, the others because they may not write memory. -/
theorem onlyStoresChangeMemory : Obligations.OnlyStoresChangeMemory := by
  intro i s t h
  refine ⟨exec_mem h, ?_, ?_⟩
  · rintro x rfl b
    exact exec_ldBVx_byteAt h
  · rintro x rfl b
    exact exec_ldMemVx_byteAt h

/-- Settles O57, by whether the address lies in the stored block. -/
theorem readReturnsTheLatestWrite : Obligations.ReadReturnsTheLatestWrite := by
  intro s a b bytes
  refine ⟨rfl, ?_⟩
  split
  · next hin => exact s.byteAt_store_of_inside hin.1 hin.2
  · next hout => exact s.byteAt_store_of_outside (by omega)

end Sys2Proof.Machine
end

