-- ==== Sys2Proof/Proofs/Encoding.lean ====
section
/-! PROOF. Encoding.lean: the encoder and the decoder undo each other up to the ignored bits, and the decoder follows
the opcode map (spec/30_encoding.md R92 to R103). -/

namespace Sys2Proof

/-! ### From an instruction to its word and back -/

/-- A well-formed instruction is decoded from its encoding (R92, R102). The fields of the packed word are the operands,
and the selector of the family finds the arm. -/
theorem decode_encode {i : Instr} (hwf : i.wf = true) : decode (encode i) = .ok i := by
  cases i with
  | cls | ret => rfl
  | jp | call | ldINnn | jpV0 => simp [encode, decode]
  | seVxNn | sneVxNn | ldVxNn | addVxNn | rnd => simp [encode, decode]
  | seVxVy | sneVxVy => simp [encode, decode]
  | ldVxVy | or | and | xor | addVxVy | sub | shr | subn | shl => simp [encode, decode, decodeFamily8]
  | drw x y n =>
    have hn : n < 16 := of_decide_eq_true hwf
    simp [encode, decode, Nat.mod_eq_of_lt hn]
  | skp | sknp => simp [encode, decode, decodeFamilyE]
  | ldVxDt | ldVxK | ldDtVx | ldStVx | addIVx | ldFVx | ldBVx | ldMemVx | ldVxMem =>
    simp [encode, decode, decodeFamilyF]

/-- Settles O1, by the instruction. -/
theorem encodeThenDecodeReturnsTheInstruction : Obligations.EncodeThenDecodeReturnsTheInstruction :=
  fun _ => decode_encode

/-! ### A word under the bits an instruction reads (R100) -/

@[simp] theorem regBits_zero : regBits 0 = 0#4 := rfl

/-- The mask of a row selected on the whole word, and the bits read where none is ignored. -/
theorem and_allBits (w : Word) : w &&& 0xFFFF#16 = w := BitVec.and_allOnes

/-- The bits read where `n` is ignored. -/
theorem and_ignoreN (w : Word) : w &&& 0xFFF0#16 = packXyn (famField w) (xField w) (yField w) 0 := by
  apply BitVec.eq_of_getLsbD_eq
  intro i hi
  refine Eq.trans ?_ (nibbles_getLsbD (famField w) (regBits (xField w)) (regBits (yField w)) 0 i).symm
  interval_cases i <;> simp [famField, xField, yField]

/-- The bits read where `y` is ignored. -/
theorem and_ignoreY (w : Word) : w &&& 0xFF0F#16 = packXyn (famField w) (xField w) 0 (nField w) := by
  apply BitVec.eq_of_getLsbD_eq
  intro i hi
  refine Eq.trans ?_ (nibbles_getLsbD (famField w) (regBits (xField w)) (regBits 0) (nField w) i).symm
  interval_cases i <;> simp [famField, xField, nField]

section
variable {w : Word} {f : BitVec 4}

theorem packNnn_of_fields (hfam : famField w = f) : packNnn f (nnnField w) = w &&& 0xFFFF#16 := by
  rw [← hfam, packNnn_fields, and_allBits]

theorem packXnn_of_fields {nn : Byte} (hfam : famField w = f) (hnn : nnField w = nn) :
    packXnn f (xField w) nn = w &&& 0xFFFF#16 := by
  rw [← hfam, ← hnn, packXnn_fields, and_allBits]

theorem packXyn_of_fields {n : BitVec 4} (hfam : famField w = f) (hn : nField w = n) :
    packXyn f (xField w) (yField w) n = w &&& 0xFFFF#16 := by
  rw [← hfam, ← hn, packXyn_fields, and_allBits]

theorem packXyn_of_fields_ignoreY {n : BitVec 4} (hfam : famField w = f) (hn : nField w = n) :
    packXyn f (xField w) 0 n = w &&& 0xFF0F#16 := by
  rw [← hfam, ← hn, and_ignoreY]

theorem packXyn_of_fields_ignoreN (hfam : famField w = f) :
    packXyn f (xField w) (yField w) 0 = w &&& 0xFFF0#16 := by
  rw [← hfam, and_ignoreN]

end

/-! ### From a word to its instruction and back -/

/-- The instruction is well formed, and its encoding is the word with the ignored bits 0. -/
def Instr.IsReadingOf (i : Instr) (w : Word) : Prop := i.wf = true ∧ encode i = w &&& i.readBits

section
variable {w : Word} {i : Instr}

theorem isReadingOf_of_decodeFamily0 (h : decodeFamily0 w = .ok i) : i.IsReadingOf w := by
  unfold decodeFamily0 at h
  split at h
  · next hw => cases h; exact ⟨rfl, hw ▸ rfl⟩
  · split at h
    · next hw => cases h; exact ⟨rfl, hw ▸ rfl⟩
    · cases h

theorem isReadingOf_of_decodeFamily8 (hfam : famField w = 0x8#4) (h : decodeFamily8 w = .ok i) :
    i.IsReadingOf w := by
  unfold decodeFamily8 at h
  split at h <;> cases h
  case h_7 hn | h_9 hn => exact ⟨rfl, packXyn_of_fields_ignoreY hfam hn⟩
  all_goals next hn => exact ⟨rfl, packXyn_of_fields hfam hn⟩

theorem isReadingOf_of_decodeFamilyE (hfam : famField w = 0xE#4) (h : decodeFamilyE w = .ok i) :
    i.IsReadingOf w := by
  unfold decodeFamilyE at h
  split at h <;> cases h
  all_goals next hnn => exact ⟨rfl, packXnn_of_fields hfam hnn⟩

theorem isReadingOf_of_decodeFamilyF (hfam : famField w = 0xF#4) (h : decodeFamilyF w = .ok i) :
    i.IsReadingOf w := by
  unfold decodeFamilyF at h
  split at h <;> cases h
  all_goals next hnn => exact ⟨rfl, packXnn_of_fields hfam hnn⟩

end

/-- The decoder, opened: every word of twelve families is an instruction, and the other four have a selector of their
own (R96 to R99). -/
theorem decode_by_family (w : Word) :
    (famField w ∉ [0x0#4, 0x8#4, 0xE#4, 0xF#4] ∧ ∃ i, decode w = .ok i ∧ i.IsReadingOf w) ∨
      (famField w = 0x0#4 ∧ decode w = decodeFamily0 w) ∨ (famField w = 0x8#4 ∧ decode w = decodeFamily8 w) ∨
        (famField w = 0xE#4 ∧ decode w = decodeFamilyE w) ∨ (famField w = 0xF#4 ∧ decode w = decodeFamilyF w) := by
  unfold decode
  split
  case h_1 hfam => exact .inr (.inl ⟨hfam, rfl⟩)
  case h_9 hfam => exact .inr (.inr (.inl ⟨hfam, rfl⟩))
  case h_15 hfam => exact .inr (.inr (.inr (.inl ⟨hfam, rfl⟩)))
  case h_16 =>
    have hfam : famField w = 0xF#4 := by
      simp only [imp_false] at *
      bv_omega
    exact .inr (.inr (.inr (.inr ⟨hfam, rfl⟩)))
  case h_2 hfam | h_3 hfam | h_11 hfam | h_12 hfam =>
    exact .inl ⟨by rw [hfam]; decide, _, rfl, rfl, packNnn_of_fields hfam⟩
  case h_4 hfam | h_5 hfam | h_7 hfam | h_8 hfam | h_13 hfam =>
    exact .inl ⟨by rw [hfam]; decide, _, rfl, rfl, packXnn_of_fields hfam rfl⟩
  case h_6 hfam | h_10 hfam => exact .inl ⟨by rw [hfam]; decide, _, rfl, rfl, packXyn_of_fields_ignoreN hfam⟩
  case h_14 hfam =>
    have henc : encode (.drw (xField w) (yField w) (nField w).toNat) = w &&& 0xFFFF#16 := by
      rw [encode, BitVec.ofNat_toNat, BitVec.setWidth_eq, packXyn_of_fields hfam rfl]
    exact .inl ⟨by rw [hfam]; decide, _, rfl, decide_eq_true (nField w).isLt, henc⟩

/-- Every decoded instruction is the reading of its word (R92, R100). -/
theorem isReadingOf_of_decode {w : Word} {i : Instr} (h : decode w = .ok i) : i.IsReadingOf w := by
  obtain ⟨-, j, hd, hj⟩ | ⟨-, hd⟩ | ⟨hfam, hd⟩ | ⟨hfam, hd⟩ | ⟨hfam, hd⟩ := decode_by_family w <;> rw [hd] at h
  · exact Except.ok.inj h ▸ hj
  · exact isReadingOf_of_decodeFamily0 h
  · exact isReadingOf_of_decodeFamily8 hfam h
  · exact isReadingOf_of_decodeFamilyE hfam h
  · exact isReadingOf_of_decodeFamilyF hfam h

/-- Settles O2, by the family of the word. -/
theorem decodedWordEncodesBackUpToIgnoredBits : Obligations.DecodedWordEncodesBackUpToIgnoredBits :=
  fun _ _ => isReadingOf_of_decode

/-! ### The unknown space (R101) -/

section
variable (w : Word)

theorem decodeFamily0_eq_error_iff :
    decodeFamily0 w = .error (.unknownOpcode w) ↔ w ≠ 0x00E0#16 ∧ w ≠ 0x00EE#16 := by
  unfold decodeFamily0
  split
  · next hw => exact iff_of_false nofun fun h => h.1 hw
  · next hcls =>
    split
    · next hw => exact iff_of_false nofun fun h => h.2 hw
    · next hret => exact iff_of_true rfl ⟨hcls, hret⟩

theorem decodeFamily8_eq_error_iff :
    decodeFamily8 w = .error (.unknownOpcode w) ↔ 8 ≤ (nField w).toNat ∧ (nField w).toNat ≠ 0xE := by
  unfold decodeFamily8
  split
  case h_10 =>
    have hn : 8 ≤ (nField w).toNat ∧ (nField w).toNat ≠ 0xE := by
      simp only [imp_false] at *
      bv_omega
    exact iff_of_true rfl hn
  all_goals next hn => rw [hn]; exact iff_of_false nofun (by decide)

theorem decodeFamilyE_eq_error_iff :
    decodeFamilyE w = .error (.unknownOpcode w) ↔ nnField w ∉ [0x9E#8, 0xA1#8] := by
  unfold decodeFamilyE
  split
  case h_3 =>
    simp only [imp_false] at *
    simp [*]
  all_goals next hnn => rw [hnn]; exact iff_of_false nofun (by decide)

theorem decodeFamilyF_eq_error_iff :
    decodeFamilyF w = .error (.unknownOpcode w) ↔
      nnField w ∉ [0x07#8, 0x0A#8, 0x15#8, 0x18#8, 0x1E#8, 0x29#8, 0x33#8, 0x55#8, 0x65#8] := by
  unfold decodeFamilyF
  split
  case h_10 =>
    simp only [imp_false] at *
    simp [*]
  all_goals next hnn => rw [hnn]; exact iff_of_false nofun (by decide)

end

/-- Settles O4, by the family of the word. -/
theorem unknownSpaceIsExactlyTheListedWords : Obligations.UnknownSpaceIsExactlyTheListedWords := by
  intro w
  rw [← famField_toNat, ← nField_toNat, ← nnField_toNat]
  obtain ⟨hfam, i, hd, -⟩ | ⟨hfam, hd⟩ | ⟨hfam, hd⟩ | ⟨hfam, hd⟩ | ⟨hfam, hd⟩ := decode_by_family w <;> rw [hd]
  · have hnat : (famField w).toNat ≠ 0x0 ∧ (famField w).toNat ≠ 0x8 ∧
        (famField w).toNat ≠ 0xE ∧ (famField w).toNat ≠ 0xF := by
      simpa [BitVec.toNat_eq] using hfam
    exact iff_of_false nofun (by simp [hnat])
  · rw [decodeFamily0_eq_error_iff]
    simp [hfam, BitVec.toNat_eq]
  · rw [decodeFamily8_eq_error_iff]
    simp [hfam]
  · rw [decodeFamilyE_eq_error_iff]
    simp [hfam, BitVec.toNat_eq]
  · rw [decodeFamilyF_eq_error_iff]
    simp [hfam, BitVec.toNat_eq]

/-! ### The opcode map (R103) -/

/-- The opcode of an instruction lies in the instruction's row. -/
theorem encode_row (i : Instr) : encode i &&& i.row.mask = i.row.pattern := by
  cases i with
  | cls => exact Laws.EncodingRow.cls
  | ret => exact Laws.EncodingRow.ret
  | jp nnn => exact Laws.EncodingRow.jp nnn
  | call nnn => exact Laws.EncodingRow.call nnn
  | seVxNn x nn => exact Laws.EncodingRow.seVxNn x nn
  | sneVxNn x nn => exact Laws.EncodingRow.sneVxNn x nn
  | seVxVy x y => exact Laws.EncodingRow.seVxVy x y
  | ldVxNn x nn => exact Laws.EncodingRow.ldVxNn x nn
  | addVxNn x nn => exact Laws.EncodingRow.addVxNn x nn
  | ldVxVy x y => exact Laws.EncodingRow.ldVxVy x y
  | or x y => exact Laws.EncodingRow.or x y
  | and x y => exact Laws.EncodingRow.and x y
  | xor x y => exact Laws.EncodingRow.xor x y
  | addVxVy x y => exact Laws.EncodingRow.addVxVy x y
  | sub x y => exact Laws.EncodingRow.sub x y
  | shr x => exact Laws.EncodingRow.shr x
  | subn x y => exact Laws.EncodingRow.subn x y
  | shl x => exact Laws.EncodingRow.shl x
  | sneVxVy x y => exact Laws.EncodingRow.sneVxVy x y
  | ldINnn nnn => exact Laws.EncodingRow.ldINnn nnn
  | jpV0 nnn => exact Laws.EncodingRow.jpV0 nnn
  | rnd x nn => exact Laws.EncodingRow.rnd x nn
  | drw x y n => exact Laws.EncodingRow.drw x y n
  | skp x => exact Laws.EncodingRow.skp x
  | sknp x => exact Laws.EncodingRow.sknp x
  | ldVxDt x => exact Laws.EncodingRow.ldVxDt x
  | ldVxK x => exact Laws.EncodingRow.ldVxK x
  | ldDtVx x => exact Laws.EncodingRow.ldDtVx x
  | ldStVx x => exact Laws.EncodingRow.ldStVx x
  | addIVx x => exact Laws.EncodingRow.addIVx x
  | ldFVx x => exact Laws.EncodingRow.ldFVx x
  | ldBVx x => exact Laws.EncodingRow.ldBVx x
  | ldMemVx x => exact Laws.EncodingRow.ldMemVx x
  | ldVxMem x => exact Laws.EncodingRow.ldVxMem x

/-- An ignored bit is in no mask of its row. -/
theorem readBits_and_mask (i : Instr) : i.readBits &&& i.row.mask = i.row.mask := by
  cases i with
  | seVxVy | sneVxVy =>
    show 0xFFF0#16 &&& 0xF000#16 = 0xF000#16
    decide
  | shr | shl =>
    show 0xFF0F#16 &&& 0xF00F#16 = 0xF00F#16
    decide
  | _ => exact BitVec.allOnes_and

/-- The row of a decoded instruction selects the word: the ignored bits are none of its mask. -/
theorem row_of_decode {w : Word} {i : Instr} (h : decode w = .ok i) : w &&& i.row.mask = i.row.pattern := by
  obtain ⟨-, henc⟩ := isReadingOf_of_decode h
  calc w &&& i.row.mask
    _ = (w &&& i.readBits) &&& i.row.mask := by rw [BitVec.and_assoc, readBits_and_mask]
    _ = i.row.pattern := by rw [← henc, encode_row]

theorem row_mem_opcodeMap (i : Instr) : i.row ∈ opcodeMap := by
  cases i <;> simp [Instr.row, opcodeMap]

section
variable {w p : Word}

theorem famField_of_familyMask (h : w &&& 0xF000#16 = p) : famField w = famField p := by
  rw [← h, and_familyMask, famField_packXyn]

theorem fields_of_nibbleMask (h : w &&& 0xF00F#16 = p) : famField w = famField p ∧ nField w = nField p := by
  rw [← h, and_nibbleMask, famField_packXyn, nField_packXyn]
  exact ⟨rfl, rfl⟩

theorem fields_of_byteMask (h : w &&& 0xF0FF#16 = p) : famField w = famField p ∧ nnField w = nnField p := by
  rw [← h, and_byteMask, famField_packXnn, nnField_packXnn]
  exact ⟨rfl, rfl⟩

end

/-- A word that a row selects is decoded to an instruction of that row. -/
theorem decode_of_row {w : Word} {i : Instr} (h : w &&& i.row.mask = i.row.pattern) :
    ∃ j, decode w = .ok j ∧ j.row = i.row := by
  cases i with
  | cls | ret =>
    obtain rfl := (and_allBits w).symm.trans h
    exact ⟨_, rfl, rfl⟩
  | jp | call | seVxNn | sneVxNn | seVxVy | ldVxNn | addVxNn | sneVxVy | ldINnn | jpV0 | rnd | drw =>
    dsimp only [Instr.row] at h
    have hfam := famField_of_familyMask h
    exact ⟨_, by unfold decode; rw [hfam]; rfl, by rfl⟩
  | ldVxVy | or | and | xor | addVxVy | sub | shr | subn | shl =>
    dsimp only [Instr.row] at h
    obtain ⟨hfam, hn⟩ := fields_of_nibbleMask h
    exact ⟨_, by unfold decode decodeFamily8; rw [hfam, hn]; rfl, by rfl⟩
  | skp | sknp =>
    dsimp only [Instr.row] at h
    obtain ⟨hfam, hnn⟩ := fields_of_byteMask h
    exact ⟨_, by unfold decode decodeFamilyE; rw [hfam, hnn]; rfl, by rfl⟩
  | ldVxDt | ldVxK | ldDtVx | ldStVx | addIVx | ldFVx | ldBVx | ldMemVx | ldVxMem =>
    dsimp only [Instr.row] at h
    obtain ⟨hfam, hnn⟩ := fields_of_byteMask h
    exact ⟨_, by unfold decode decodeFamilyF; rw [hfam, hnn]; rfl, by rfl⟩

theorem exists_row_of_mem_opcodeMap {r : OpcodeRow} (hr : r ∈ opcodeMap) : ∃ i : Instr, i.row = r := by
  simp only [opcodeMap, List.mem_append, List.mem_map] at hr
  obtain ⟨i, -, hi⟩ | ⟨i, -, hi⟩ := hr <;> exact ⟨i, hi⟩

/-- Settles O3: a row that selects the word fixes its selectors, and the row of the decoded instruction selects it. -/
theorem decodingFollowsTheOpcodeMap : Obligations.DecodingFollowsTheOpcodeMap := by
  intro w
  refine ⟨⟨?_, ?_⟩, fun i => row_of_decode⟩
  · rintro ⟨i, hd⟩
    exact ⟨i.row, row_mem_opcodeMap i, row_of_decode hd⟩
  · rintro ⟨r, hr, hw⟩
    obtain ⟨i, rfl⟩ := exists_row_of_mem_opcodeMap hr
    obtain ⟨j, hd, -⟩ := decode_of_row hw
    exact ⟨j, hd⟩

/-- Two rows that select one word are the same row, for the word decodes to one instruction. -/
theorem row_eq_of_selects {i j : Instr} {w : Word} (hi : w &&& i.row.mask = i.row.pattern)
    (hj : w &&& j.row.mask = j.row.pattern) : i.row = j.row := by
  obtain ⟨a, hda, ha⟩ := decode_of_row hi
  obtain ⟨b, hdb, hb⟩ := decode_of_row hj
  obtain rfl : a = b := Except.ok.inj (hda.symm.trans hdb)
  exact ha.symm.trans hb

theorem opcodeMap_nodup : opcodeMap.Nodup := by decide

/-- Settles O5: the 34 rows are different, and rows that select one word are equal. -/
theorem noTwoRowsOverlap : Obligations.NoTwoRowsOverlap := by
  refine ⟨rfl, opcodeMap_nodup.imp_of_mem ?_⟩
  rintro r q hr hq hne w ⟨hwr, hwq⟩
  obtain ⟨i, rfl⟩ := exists_row_of_mem_opcodeMap hr
  obtain ⟨j, rfl⟩ := exists_row_of_mem_opcodeMap hq
  exact hne (row_eq_of_selects hwr hwq)

/-! ### Words of the spec -/

/-- Settles O6, by running the decoder on each word. -/
theorem wordsOfTheSpecDecode : Obligations.WordsOfTheSpecDecode := by
  unfold Obligations.WordsOfTheSpecDecode
  decide

end Sys2Proof
end

