-- ==== Sys2Proof/Proofs/Cycle.lean ====
section
/-! PROOF. Cycle.lean: the step cycle (spec/40_step_cycle.md): the fetch and the tick, the exits of an instruction and of
a step, and the statements about them. -/

namespace Sys2Proof.Machine

/-! ### Fetch and decode (R122, R123, R127) -/

/-- A fetch inside memory answers the two bytes at PC, high byte first. -/
theorem State.fetch_of_lt {s : State} (hpc : s.pc.toNat + 1 < 4096) :
    s.fetch = .ok (s.byteAt s.pc.toNat ++ s.byteAt (s.pc.toNat + 1)) :=
  s.fetch_eq.trans (if_pos hpc)

theorem State.fetch_eq_ok {s : State} {op : Word} (hfetch : s.fetch = .ok op) :
    s.byteAt s.pc.toNat ++ s.byteAt (s.pc.toNat + 1) = op := by
  rw [State.fetch_of_lt (State.pc_of_fetch_eq_ok hfetch)] at hfetch
  exact Except.ok.inj hfetch

/-- The step of a core that is not halted and fetches inside memory. -/
theorem step_eq_endCycle {s : State} (hmode : s.mode = .running ∨ s.mode = .awaitingKey)
    (hpc : s.pc.toNat + 1 < 4096) :
    step s = endCycle (runDecoded (decode (s.byteAt s.pc.toNat ++ s.byteAt (s.pc.toNat + 1))) s) := by
  rw [step_of_notHalted s hmode, State.fetch_of_lt hpc]

/-- A refused word is refused by its own name: no family's decoder changes it (spec/30_encoding.md R101). -/
theorem eq_of_decode_eq_error {op w : Word} (h : decode op = .error (.unknownOpcode w)) : w = op := by
  obtain ⟨-, i, hd, -⟩ | ⟨-, hd⟩ | ⟨-, hd⟩ | ⟨-, hd⟩ | ⟨-, hd⟩ := decode_by_family op <;> rw [hd] at h
  · cases h
  · unfold decodeFamily0 at h
    split_ifs at h
    cases h
    rfl
  all_goals
    simp only [decodeFamily8, decodeFamilyE, decodeFamilyF] at h
    split at h <;> cases h
    rfl

/-- A word that is no instruction is refused as unknown. -/
theorem decode_eq_error_of_forall_ne {op : Word} (h : ∀ i, decode op ≠ .ok i) :
    decode op = .error (.unknownOpcode op) := by
  cases hd : decode op with
  | ok i => exact absurd hd (h i)
  | error r =>
    obtain ⟨w⟩ := r
    rw [eq_of_decode_eq_error hd]

/-- Settles O8: the run of the decoded word is the instruction's. -/
theorem stepRunsTheDecodedInstruction : Obligations.StepRunsTheDecodedInstruction := by
  intro s i hmode hpc hdecode
  rw [step_eq_endCycle hmode hpc, hdecode]
  rfl

/-- Settles O9: the refused word is the one fetched, and the reported no-op ticks. -/
theorem unknownWordIsAReportedNoOp : Obligations.UnknownWordIsAReportedNoOp := by
  intro s op hmode hpc hop hunknown
  rw [step_eq_endCycle hmode hpc, ← hop, decode_eq_error_of_forall_ne hunknown]
  rfl

/-- Settles O10: the fetch faults with the lowest address of its two that is out of range. -/
theorem fetchOutsideMemoryHalts : Obligations.FetchOutsideMemoryHalts := by
  intro s hmode hpc c
  have haddr : max s.pc.toNat 4096 = if 4096 ≤ s.pc.toNat then s.pc.toNat else s.pc.toNat + 1 := by
    split <;> omega
  have hfetch : s.fetch = .error c := by
    rw [State.fetch_eq, if_neg (by omega), haddr]
  rw [step_of_notHalted s hmode, hfetch]
  rfl

/-! ### The halted core (R121) -/

/-- Settles O11: a halted core takes its fault again, which writes the mode it has. -/
theorem haltedStepChangesNothing : Obligations.HaltedStepChangesNothing := by
  intro s c hmode
  have hstep : step s = .next { s with status := .fault c } := by
    rw [step_eq, hmode]
    show Host.Outcome.next (s.raise c) = _
    rw [State.raise, ← hmode]
  exact ⟨hstep, fun hstatus => by rw [hstep, ← hstatus]⟩

/-! ### The tick (R130) -/

/-- The tone is signalled by the tick that takes the sound timer from 1 to 0 (spec/10_state.md R33). -/
theorem State.timerTick_tonePending_iff (s : State) :
    s.timerTick.tonePending = true ↔ s.tonePending = true ∨ s.st.toNat = 1 := by
  simp [BitVec.toNat_eq]

/-- Settles O12, from the count of one timer and the tone condition. -/
theorem tickCountsTheTimersDown : Obligations.TickCountsTheTimersDown := fun s =>
  ⟨rfl, countDown_toNat s.dt, countDown_toNat s.st, s.timerTick_tonePending_iff⟩

/-! ### The exits of an instruction and of a step (R132) -/

/-- `t` stops short of completing in `s`: the wait for a key or a fault taken, both in `s` itself (R128, R129). -/
def State.Stops (s t : State) : Prop := t = s.awaitKey ∨ ∃ c, t = s.raise c

/-- `t` completes in `s`: an instruction done, or an unknown word reported (R127). -/
def State.Completes (s t : State) : Prop :=
  t.mode = .running ∧ (t.status = .ok ∨ ∃ op, t.status = .unknownOpcode op ∧ t.pc = s.pc + 2)

theorem State.Stops.ticks_eq_false {s t : State} (h : s.Stops t) : t.status.ticks = false := by
  obtain rfl | ⟨c, rfl⟩ := h <;> rfl

theorem State.Completes.ticks_eq_true {s t : State} (h : s.Completes t) : t.status.ticks = true := by
  obtain ⟨-, hok | ⟨op, hunknown, -⟩⟩ := h
  · rw [hok]; rfl
  · rw [hunknown]; rfl

/-- An instruction always answers a next state; it is done, or it stops. -/
theorem exec_exits (i : Instr) (s : State) :
    ∃ t, exec i s = .next t ∧ (t.mode = .running ∧ t.status = .ok ∨ s.Stops t) := by
  have checked {α : Type} (r : Except Fault α) (f : α → State)
      (hdone : ∀ a, (f a).mode = .running ∧ (f a).status = .ok) :
      ∃ t, s.attempt (r.map f) = .next t ∧ (t.mode = .running ∧ t.status = .ok ∨ s.Stops t) := by
    cases r with
    | ok a => exact ⟨f a, rfl, .inl (hdone a)⟩
    | error c => exact ⟨s.raise c, rfl, .inr (.inr ⟨c, rfl⟩)⟩
  cases i with
  | ret | call | drw | ldBVx | ldMemVx | ldVxMem | skp | sknp => exact checked _ _ fun _ => ⟨rfl, rfl⟩
  | ldVxK x =>
    show ∃ t, execLdVxK x s = .next t ∧ _
    unfold execLdVxK
    split
    · exact ⟨_, rfl, .inl ⟨rfl, rfl⟩⟩
    · exact ⟨_, rfl, .inr (.inl rfl)⟩
  | _ => exact ⟨_, rfl, .inl ⟨rfl, rfl⟩⟩

/-- The run of a decoded word always answers a next state; it completes, or it stops. -/
theorem runDecoded_exits (d : Except Reject Instr) (s : State) :
    ∃ t, runDecoded d s = .next t ∧ (s.Completes t ∨ s.Stops t) := by
  rcases d with ⟨⟨op⟩⟩ | i
  · exact ⟨_, rfl, .inl ⟨rfl, .inr ⟨op, rfl, rfl⟩⟩⟩
  · obtain ⟨t, ht, ⟨hmode, hok⟩ | hstops⟩ := exec_exits i s
    · exact ⟨t, ht, .inl ⟨hmode, .inl hok⟩⟩
    · exact ⟨t, ht, .inr hstops⟩

/-- Every step answers a next state: it stops, or it runs a fetched word that completes, and ticks once (R131). -/
theorem step_exits (s : State) :
    ∃ t, step s = .next t ∧
      (s.Stops t ∨
        ∃ op u, s.fetch = .ok op ∧ runDecoded (decode op) s = .next u ∧ s.Completes u ∧ t = u.timerTick) := by
  obtain ⟨c, hmode⟩ | hmode : (∃ c, s.mode = .halted c) ∨ s.mode = .running ∨ s.mode = .awaitingKey := by
    cases s.mode <;> simp
  · exact ⟨s.raise c, by rw [step_eq, hmode], .inl (.inr ⟨c, rfl⟩)⟩
  · rw [step_of_notHalted s hmode]
    cases hfetch : s.fetch with
    | error c => exact ⟨s.raise c, rfl, .inl (.inr ⟨c, rfl⟩)⟩
    | ok op =>
      obtain ⟨u, hrun, hcompletes | hstops⟩ := runDecoded_exits (decode op) s
      · exact ⟨u.timerTick, by simp [hrun, hcompletes.ticks_eq_true], .inr ⟨op, u, rfl, hrun, hcompletes, rfl⟩⟩
      · exact ⟨u, by simp [hrun, hstops.ticks_eq_false], .inl hstops⟩

/-- Settles O15, from the exits of a step; the tick writes none of status, mode and PC. -/
theorem everyStepAnswersOneOfTheListedExits : Obligations.EveryStepAnswersOneOfTheListedExits := by
  intro s
  obtain ⟨t, hstep, (rfl | ⟨c, rfl⟩) | ⟨-, u, -, -, ⟨hmode, hok | ⟨op, hunknown, hpc⟩⟩, rfl⟩⟩ := step_exits s
  · exact ⟨_, hstep, .inr (.inr (.inl ⟨rfl, rfl, rfl⟩))⟩
  · exact ⟨_, hstep, .inr (.inr (.inr ⟨c, rfl, rfl, rfl⟩))⟩
  · exact ⟨_, hstep, .inl ⟨hok, hmode⟩⟩
  · exact ⟨_, hstep, .inr (.inl ⟨op, hunknown, hmode, hpc⟩)⟩

/-- A step that answers a status that does not tick stops. -/
theorem stops_of_ticks_eq_false {s t : State} (h : step s = .next t) (hticks : t.status.ticks = false) :
    s.Stops t := by
  obtain ⟨t', ht', hstops | ⟨-, u, -, -, hcompletes, rfl⟩⟩ := step_exits s <;>
    cases Host.Outcome.next.inj (ht'.symm.trans h)
  · exact hstops
  · exact absurd (hcompletes.ticks_eq_true.symm.trans hticks) nofun

/-- A step that answers a status that ticks is the run of the word fetched and one tick (R131). -/
theorem runDecoded_of_ticks_eq_true {s t : State} (h : step s = .next t) (hticks : t.status.ticks = true) :
    ∃ u, runDecoded (decode (s.byteAt s.pc.toNat ++ s.byteAt (s.pc.toNat + 1))) s = .next u ∧ t = u.timerTick := by
  obtain ⟨t', ht', hstops | ⟨op, u, hfetch, hrun, -, htick⟩⟩ := step_exits s <;>
    cases Host.Outcome.next.inj (ht'.symm.trans h)
  · exact absurd (hstops.ticks_eq_false.symm.trans hticks) nofun
  · exact ⟨u, State.fetch_eq_ok hfetch ▸ hrun, htick⟩

/-- Settles O14: such a step stops, and both ways of stopping write mode and status only. -/
theorem waitingOrFaultingStepChangesOnlyModeAndStatus :
    Obligations.WaitingOrFaultingStepChangesOnlyModeAndStatus := by
  intro s t h hstatus
  have hticks : t.status.ticks = false := by
    obtain hwait | ⟨c, hfault⟩ := hstatus
    · rw [hwait]; rfl
    · rw [hfault]; rfl
  obtain rfl | ⟨c, rfl⟩ := stops_of_ticks_eq_false h hticks <;> rfl

/-! ### The timers over a completing step (R131, spec/45_keys_timers.md R244, R245) -/

section
variable {d : Except Reject Instr} {s u : State} (h : runDecoded d s = .next u)
include h

theorem runDecoded_tonePending : u.tonePending = s.tonePending := by
  obtain ⟨i, -, hi⟩ | ⟨op, -, rfl⟩ := runDecoded_eq_next h
  · exact exec_tonePending hi
  · rfl

theorem runDecoded_dt (hd : ∀ x, d ≠ .ok (.ldDtVx x)) : u.dt = s.dt := by
  obtain ⟨i, rfl, hi⟩ | ⟨op, -, rfl⟩ := runDecoded_eq_next h
  · exact exec_dt hi fun x hx => hd x (congrArg _ hx)
  · rfl

theorem runDecoded_st (hd : ∀ x, d ≠ .ok (.ldStVx x)) : u.st = s.st := by
  obtain ⟨i, rfl, hi⟩ | ⟨op, -, rfl⟩ := runDecoded_eq_next h
  · exact exec_st hi fun x hx => hd x (congrArg _ hx)
  · rfl

theorem runDecoded_ldDtVx_dt {x : Reg} (hd : d = .ok (.ldDtVx x)) : u.dt = s.getV x := by
  subst hd
  exact Host.Outcome.next.inj h ▸ rfl

theorem runDecoded_ldStVx_st {x : Reg} (hd : d = .ok (.ldStVx x)) : u.st = s.getV x := by
  subst hd
  exact Host.Outcome.next.inj h ▸ rfl

end

/-- Settles O13: such a step is the run of its word and one tick, which counts down the timers the run left: the value
written by the instruction that sets the timer, the old one otherwise. -/
theorem completingStepTicksOnce : Obligations.CompletingStepTicksOnce := by
  intro s t h hstatus ins
  have hticks : t.status.ticks = true := by
    obtain hok | ⟨op, hunknown⟩ := hstatus
    · rw [hok]; rfl
    · rw [hunknown]; rfl
  obtain ⟨u, hrun, rfl⟩ := runDecoded_of_ticks_eq_true h hticks
  have hdt {b : Byte} (hu : u.dt = b) : u.timerTick.dt.toNat = b.toNat - 1 := hu ▸ countDown_toNat u.dt
  have hst {b : Byte} (hu : u.st = b) : u.timerTick.st.toNat = b.toNat - 1 ∧
      (u.timerTick.tonePending = true ↔ s.tonePending = true ∨ b.toNat = 1) := by
    refine ⟨hu ▸ countDown_toNat u.st, ?_⟩
    rw [u.timerTick_tonePending_iff, runDecoded_tonePending hrun, hu]
  exact ⟨fun x hx => hdt (runDecoded_ldDtVx_dt hrun hx), fun hne => hdt (runDecoded_dt hrun hne),
    fun x hx => hst (runDecoded_ldStVx_st hrun hx), fun hne => hst (runDecoded_st hrun hne)⟩

/-! ### The unsatisfied wait (R128) -/

/-- Wait-for-key with no key down waits. -/
theorem exec_ldVxK_of_no_key {s : State} (hkey : ∀ k : Reg, s.key.getLsbD k.val = false) (x : Reg) :
    exec (.ldVxK x) s = .next s.awaitKey := by
  show execLdVxK x s = _
  rw [execLdVxK, (keyPick_eq_none s.key).2 hkey]

/-- Nothing is remembered of a wait: the step after it is the step from the state before. -/
theorem step_awaitKey {s : State} (hmode : s.mode = .running ∨ s.mode = .awaitingKey) :
    step s.awaitKey = step s := by
  have hwait (e : Status) : step s.awaitKey = step { s with mode := .running, status := e } :=
    stepIgnoresWaitingAndTheLastStatus s .waitingForKey e
  obtain hm | hm := hmode
  · rw [hwait s.status, ← hm]
  · rw [hwait .ok, ← stepIgnoresWaitingAndTheLastStatus s s.status .ok, ← hm]

/-- Settles O55: the wait is the whole step, as it does not tick; the next step is that of the state before the wait
with the same keys. -/
theorem unsatisfiedWaitChangesOnlyTheMode : Obligations.UnsatisfiedWaitChangesOnlyTheMode := by
  intro x s hkey
  have hexec := exec_ldVxK_of_no_key hkey x
  refine ⟨hexec, fun hmode hpc hdecode => ⟨s.awaitKey, ?_, rfl, fun keys => ?_⟩⟩
  · rw [stepRunsTheDecodedInstruction s _ hmode hpc hdecode, hexec]
    rfl
  · exact step_awaitKey (s := { s with key := keys }) hmode

end Sys2Proof.Machine
end

