-- ==== Sys2Proof/Proofs/Control.lean ====
section
/-! PROOF. Control.lean: return, jump, call, the compare skips and jump-with-offset (spec/41_control_transfer.md): the
word each is decoded from, and its whole result. -/

namespace Sys2Proof

/-! ### A word given by its fields as numbers (spec/30_encoding.md R91, R92) -/

theorem ofNat_eq_packNnn (f : BitVec 4) (nnn : Addr) :
    BitVec.ofNat 16 (f.toNat * 4096 + nnn.toNat) = packNnn f nnn := by
  rw [← packNnn_toNat, BitVec.ofNat_toNat, BitVec.setWidth_eq]

theorem ofNat_eq_packXnn (f : BitVec 4) (x : Reg) (nn : Byte) :
    BitVec.ofNat 16 (f.toNat * 4096 + x.val * 256 + nn.toNat) = packXnn f x nn := by
  rw [← packXnn_toNat, BitVec.ofNat_toNat, BitVec.setWidth_eq]

theorem ofNat_eq_packXyn (f : BitVec 4) (x y : Reg) (n : Fin 16) :
    BitVec.ofNat 16 (f.toNat * 4096 + x.val * 256 + y.val * 16 + n.val) = packXyn f x y (regBits n) := by
  rw [← regBits_toNat n, ← packXyn_toNat, BitVec.ofNat_toNat, BitVec.setWidth_eq]

/-- The word of a well-formed instruction is decoded to it, however the word is given. -/
theorem decode_of_eq_encode {w : Word} {i : Instr} (hwf : i.wf = true) (hw : w = encode i) : decode w = .ok i :=
  hw ▸ decode_encode hwf

/-- The low nibble of 5XYn is ignored (R100). -/
theorem decode_packXyn_seVxVy (x y : Reg) (n : BitVec 4) : decode (packXyn 0x5#4 x y n) = .ok (.seVxVy x y) := by
  simp [decode]

/-- The low nibble of 9XYn is ignored (R100). -/
theorem decode_packXyn_sneVxVy (x y : Reg) (n : BitVec 4) : decode (packXyn 0x9#4 x y n) = .ok (.sneVxVy x y) := by
  simp [decode]

end Sys2Proof

namespace Sys2Proof.Machine

/-! ### Operands as numbers (R93) -/

theorem addrWord_eq_ofNat (nnn : Addr) : addrWord nnn = BitVec.ofNat 16 nnn.toNat :=
  (BitVec.ofNat_toNat 16 nnn).symm

/-- The target of jump-with-offset is the sum of its two operands: 16 bits hold it. -/
theorem addrWord_add_byteWord_toNat (nnn : Addr) (b : Byte) :
    (addrWord nnn + byteWord b).toNat = nnn.toNat + b.toNat := by
  have haddr := nnn.isLt
  have hbyte := b.isLt
  simp only [addrWord, byteWord, BitVec.truncate_eq_setWidth, BitVec.toNat_add, BitVec.toNat_setWidth]
  omega

/-! ### Jumps -/

/-- Settles O27: the word is the encoding of the jump, whose target is zero-extended. -/
theorem jumpSetsThePc : Obligations.JumpSetsThePc := fun nnn =>
  ⟨decode_of_eq_encode rfl (ofNat_eq_packNnn 0x1#4 nnn), fun s =>
    congrArg (fun pc => Host.Outcome.next (s.complete pc)) (addrWord_eq_ofNat nnn)⟩

/-- Settles O28: the word is the encoding of the jump, and the sum of the operands does not wrap. -/
theorem jumpWithOffsetAddsV0 : Obligations.JumpWithOffsetAddsV0 := fun nnn =>
  ⟨decode_of_eq_encode rfl (ofNat_eq_packNnn 0xB#4 nnn), fun s =>
    ⟨_, rfl, rfl, addrWord_add_byteWord_toNat nnn (s.getV 0)⟩⟩

/-! ### Call and return -/

/-- Settles O29: there is room for the push. -/
theorem callPushesTheNextAddress : Obligations.CallPushesTheNextAddress := by
  intro nnn s h
  show execCall nnn s = _
  rw [execCall, s.push_of_lt _ h, addrWord_eq_ofNat]
  rfl

/-- The pop with `k + 1` occupied entries answers entry `k`, the top one (spec/10_state.md R25, R26). -/
theorem State.pop_of_eq_succ (s : State) (k : Fin 16) (hsp : s.sp.val = k.val + 1) :
    s.pop = .ok (s.stack[k], { s with sp := k.castSucc }) := by
  have htop : s.sp.val - 1 = k.val := by omega
  rw [s.pop_of_pos (by omega)]
  simp only [htop]
  rfl

/-- Settles O30: there is an entry to pop. -/
theorem returnPopsTheAddress : Obligations.ReturnPopsTheAddress := by
  intro s k hsp
  show execRet s = _
  rw [execRet, s.pop_of_eq_succ k hsp]
  rfl

/-- Settles O32: the return pops the entry the call has just pushed. -/
theorem returnUndoesCall : Obligations.ReturnUndoesCall := by
  intro nnn s t h hcall
  obtain rfl := Host.Outcome.next.inj ((callPushesTheNextAddress nnn s h).symm.trans hcall)
  rw [returnPopsTheAddress _ ⟨s.sp.val, h⟩ rfl]
  simp

/-! ### The compare skips (spec/40_step_cycle.md R126) -/

theorem State.skipIf_beq (s : State) (a b : Byte) :
    s.skipIf (a == b) = s.complete (s.pc + if a.toNat = b.toNat then 4 else 2) := by
  by_cases h : a = b
  · simp [h]
  · simp [h, ← BitVec.toNat_eq]

theorem State.skipIf_bne (s : State) (a b : Byte) :
    s.skipIf (a != b) = s.complete (s.pc + if a.toNat = b.toNat then 2 else 4) := by
  by_cases h : a = b
  · simp [h]
  · simp [h, ← BitVec.toNat_eq]

/-- Settles O33: both words are encodings, and the bytes are equal when their numbers are. -/
theorem immediateSkipsCompareUnsigned : Obligations.ImmediateSkipsCompareUnsigned := fun x nn =>
  ⟨decode_of_eq_encode rfl (ofNat_eq_packXnn 0x3#4 x nn), decode_of_eq_encode rfl (ofNat_eq_packXnn 0x4#4 x nn),
    fun s => ⟨congrArg _ (s.skipIf_beq (s.getV x) nn), congrArg _ (s.skipIf_bne (s.getV x) nn)⟩⟩

/-- Settles O34: both words are decoded whatever the low nibble is, and the bytes are equal when their numbers are. -/
theorem registerSkipsCompareAsNamed : Obligations.RegisterSkipsCompareAsNamed := fun x y n =>
  ⟨(congrArg decode (ofNat_eq_packXyn 0x5#4 x y n)).trans (decode_packXyn_seVxVy x y _),
    (congrArg decode (ofNat_eq_packXyn 0x9#4 x y n)).trans (decode_packXyn_sneVxVy x y _),
    fun s => ⟨congrArg _ (s.skipIf_beq (s.getV x) (s.getV y)), congrArg _ (s.skipIf_bne (s.getV x) (s.getV y))⟩⟩

end Sys2Proof.Machine
end

