-- ==== Sys2Proof/Proofs/Alu.lean ====
section
/-! PROOF. Alu.lean: register arithmetic and logic (spec/42_alu.md): the word each instruction is decoded from, its
result and its flag as numbers, and its whole effect. -/

namespace Sys2Proof

/-! ### The words of family 0x8 (spec/30_encoding.md R92, R97) -/

/-- A word of the XYN format whose two selector nibbles stand in one base number. -/
theorem ofNat_eq_packXyn_base (f n : BitVec 4) (x y : Reg) :
    BitVec.ofNat 16 (f.toNat * 4096 + n.toNat + x.val * 256 + y.val * 16) = packXyn f x y n := by
  apply BitVec.eq_of_toNat_eq
  rw [packXyn_toNat, BitVec.toNat_ofNat]
  omega

/-- The nibble `y` of 8Xy6 is ignored (R100). -/
theorem decode_packXyn_shr (x y : Reg) : decode (packXyn 0x8#4 x y 0x6#4) = .ok (.shr x) := by
  simp [decode, decodeFamily8]

/-- The nibble `y` of 8XyE is ignored (R100). -/
theorem decode_packXyn_shl (x y : Reg) : decode (packXyn 0x8#4 x y 0xE#4) = .ok (.shl x) := by
  simp [decode, decodeFamily8]

end Sys2Proof

namespace Sys2Proof.Machine

/-! ### Flags as numbers (spec/10_state.md R21) -/

theorem flagByte_toNat (b : Bool) : (flagByte b).toNat = b.toNat := by
  cases b <;> rfl

theorem flagByte_decide_toNat (p : Prop) [Decidable p] : (flagByte (decide p)).toNat = if p then 1 else 0 := by
  by_cases h : p <;> simp [flagByte, h]

theorem carryFlag_toNat (a b : Byte) : (carryFlag a b).toNat = if 255 < a.toNat + b.toNat then 1 else 0 :=
  flagByte_decide_toNat _

theorem noBorrowFlag_toNat (a b : Byte) : (noBorrowFlag a b).toNat = if b.toNat ≤ a.toNat then 1 else 0 :=
  flagByte_decide_toNat _

theorem lowBitFlag_toNat (a : Byte) : (lowBitFlag a).toNat = a.toNat % 2 := by
  rw [lowBitFlag, flagByte_toNat, BitVec.getLsbD, Nat.toNat_testBit, pow_zero, Nat.div_one]

/-- A byte has no bit above bit 7, so the quotient is the bit itself. -/
theorem highBitFlag_toNat (a : Byte) : (highBitFlag a).toNat = a.toNat / 128 := by
  have := a.isLt
  rw [highBitFlag, flagByte_toNat, BitVec.getLsbD, Nat.toNat_testBit]
  omega

/-! ### Results as numbers (spec/42_alu.md R182) -/

theorem sub_toNat (a b : Byte) : (a - b).toNat = (256 + a.toNat - b.toNat) % 256 := by
  have := b.isLt
  rw [BitVec.toNat_sub]
  omega

theorem shiftRight_one_toNat (a : Byte) : (a >>> 1).toNat = a.toNat / 2 := by
  rw [BitVec.toNat_ushiftRight, Nat.shiftRight_eq_div_pow, pow_one]

theorem shiftLeft_one_toNat (a : Byte) : (a <<< 1).toNat = a.toNat * 2 % 256 := by
  rw [BitVec.toNat_shiftLeft, Nat.shiftLeft_eq, pow_one]

/-! ### Instructions that write no flag -/

/-- Settles O35: both words are encodings, and both instructions are one register write. -/
theorem loadImmediateAndMoveCopy : Obligations.LoadImmediateAndMoveCopy := fun x y nn =>
  ⟨decode_of_eq_encode rfl (ofNat_eq_packXnn 0x6#4 x nn),
    decode_of_eq_encode rfl (ofNat_eq_packXyn_base 0x8#4 0x0#4 x y), fun _ => ⟨rfl, rfl⟩⟩

/-- Settles O36: the word is the encoding, and the addition of bytes is modulo 256. -/
theorem addImmediateWrapsWithoutAFlag : Obligations.AddImmediateWrapsWithoutAFlag := fun x nn =>
  ⟨decode_of_eq_encode rfl (ofNat_eq_packXnn 0x7#4 x nn), fun s => ⟨_, BitVec.toNat_add (s.getV x) nn, rfl⟩⟩

/-- Settles O37: the three words are encodings, and the operations on bytes work bit by bit. -/
theorem logicCombinesBitsWithoutAFlag : Obligations.LogicCombinesBitsWithoutAFlag := by
  intro x y
  refine ⟨decode_of_eq_encode rfl (ofNat_eq_packXyn_base 0x8#4 0x1#4 x y),
    decode_of_eq_encode rfl (ofNat_eq_packXyn_base 0x8#4 0x2#4 x y),
    decode_of_eq_encode rfl (ofNat_eq_packXyn_base 0x8#4 0x3#4 x y), fun s => ?_⟩
  refine ⟨s.getV x ||| s.getV y, s.getV x &&& s.getV y, s.getV x ^^^ s.getV y, ?_, ?_, ?_, rfl, rfl, rfl⟩
  · exact fun _ => BitVec.getLsbD_or
  · exact fun _ => BitVec.getLsbD_and
  · exact fun _ => BitVec.getLsbD_xor

/-! ### Flag writers -/

/-- Settles O38: the word is the encoding; the flag and the sum are those of the old operands. -/
theorem addRegistersSetsTheCarry : Obligations.AddRegistersSetsTheCarry := fun x y =>
  ⟨decode_of_eq_encode rfl (ofNat_eq_packXyn_base 0x8#4 0x4#4 x y), fun s =>
    ⟨_, _, carryFlag_toNat (s.getV x) (s.getV y), BitVec.toNat_add (s.getV x) (s.getV y), rfl⟩⟩

/-- Settles O39: both words are encodings; the second instruction is the first with the operands exchanged. -/
theorem subtractionsSetTheNoBorrowFlag : Obligations.SubtractionsSetTheNoBorrowFlag := fun x y =>
  ⟨decode_of_eq_encode rfl (ofNat_eq_packXyn_base 0x8#4 0x5#4 x y),
    decode_of_eq_encode rfl (ofNat_eq_packXyn_base 0x8#4 0x7#4 x y), fun s =>
      ⟨⟨_, _, noBorrowFlag_toNat (s.getV x) (s.getV y), sub_toNat (s.getV x) (s.getV y), rfl⟩,
        ⟨_, _, noBorrowFlag_toNat (s.getV y) (s.getV x), sub_toNat (s.getV y) (s.getV x), rfl⟩⟩⟩

/-- Settles O40: the word is decoded whatever `y` is, and the shift is a halving. -/
theorem shiftRightMovesTheLowBitToVF : Obligations.ShiftRightMovesTheLowBitToVF := fun x y =>
  ⟨(congrArg decode (ofNat_eq_packXyn_base 0x8#4 0x6#4 x y)).trans (decode_packXyn_shr x y), fun s =>
    ⟨_, _, lowBitFlag_toNat (s.getV x), shiftRight_one_toNat (s.getV x), rfl⟩⟩

/-- Settles O41: the word is decoded whatever `y` is, and the shift is a doubling modulo 256. -/
theorem shiftLeftMovesTheHighBitToVF : Obligations.ShiftLeftMovesTheHighBitToVF := fun x y =>
  ⟨(congrArg decode (ofNat_eq_packXyn_base 0x8#4 0xE#4 x y)).trans (decode_packXyn_shl x y), fun s =>
    ⟨_, _, highBitFlag_toNat (s.getV x), shiftLeft_one_toNat (s.getV x), rfl⟩⟩

/-- After a flag writer the destination holds the result, also where it is VF: the result is written second (R183). -/
theorem getV_toNat_of_setFlagThenV {s t : State} {x : Reg} {flag result : Byte} {n : Nat}
    (hresult : result.toNat = n) (h : (.next (s.setFlagThenV flag x result).advance : Result) = .next t) :
    (t.getV x).toNat = n := by
  obtain rfl := Host.Outcome.next.inj h
  rw [State.advance_eq, State.getV_complete, State.setFlagThenV_eq, State.getV_setV_same, hresult]

/-- Settles O42: the five flag writers with `x = 15`. -/
theorem resultStandsWhenVFIsTheDestination : Obligations.ResultStandsWhenVFIsTheDestination := fun y s _ =>
  ⟨getV_toNat_of_setFlagThenV (BitVec.toNat_add (s.getV 15) (s.getV y)),
    getV_toNat_of_setFlagThenV (sub_toNat (s.getV 15) (s.getV y)),
    getV_toNat_of_setFlagThenV (shiftRight_one_toNat (s.getV 15)),
    getV_toNat_of_setFlagThenV (sub_toNat (s.getV y) (s.getV 15)),
    getV_toNat_of_setFlagThenV (shiftLeft_one_toNat (s.getV 15))⟩

/-! ### Random-and (R181) -/

theorem exec_rnd_getV {x : Reg} {nn : Byte} {s t : State} (h : exec (.rnd x nn) s = .next t) :
    t.getV x = Config.rndDraw s.draws &&& nn := by
  obtain rfl := Host.Outcome.next.inj h
  rw [State.advance_eq, State.getV_complete, State.getV_setV_same, State.drawByte_fst]

/-- Settles O43: the destination is the draw and `nn`, whatever the draw is. -/
theorem randomAndMasksADraw : Obligations.RandomAndMasksADraw := by
  intro x nn s
  refine ⟨rfl, fun t h k hk => ?_⟩
  rw [exec_rnd_getV h, BitVec.getLsbD_and, hk, Bool.and_false]

end Sys2Proof.Machine
end

