-- ==== Sys2Proof/Proofs/Index.lean ====
section
/-! PROOF. Index.lean: the index register and the memory transfers (spec/43_index_memory.md): the word each instruction
is decoded from, what a checked access answers, and the whole result. -/

namespace Sys2Proof

/-! ### The words of families 0xE and 0xF (spec/30_encoding.md R92, R98, R99) -/

/-- A word of the XSS format whose family and selector byte stand in one base number. -/
theorem ofNat_eq_packXnn_base (f : BitVec 4) (x : Reg) (nn : Byte) :
    BitVec.ofNat 16 (f.toNat * 4096 + nn.toNat + x.val * 256) = packXnn f x nn := by
  rw [← ofNat_eq_packXnn, Nat.add_right_comm]

end Sys2Proof

namespace Sys2Proof.Machine

/-! ### The index register -/

theorem byteWord_toNat (b : Byte) : (byteWord b).toNat = b.toNat :=
  BitVec.toNat_setWidth_of_le (by decide)

/-- The address of add-to-index: 16 bits of the sum (R201). -/
theorem add_byteWord_toNat (w : Word) (b : Byte) : (w + byteWord b).toNat = (w.toNat + b.toNat) % 65536 := by
  rw [BitVec.toNat_add, byteWord_toNat]

/-- The address of set-index-to-font: 16 bits hold five times a byte, masked or not (R202). -/
theorem byteWord_mul_five_toNat (b : Byte) : (byteWord b * 5).toNat = b.toNat * 5 := by
  have hbyte := b.isLt
  have hfive : (5 : Word).toNat = 5 := rfl
  rw [BitVec.toNat_mul, byteWord_toNat, hfive]
  omega

/-- Settles O44: the word is the encoding, and the address is zero-extended. -/
theorem setIndexLoadsTheAddress : Obligations.SetIndexLoadsTheAddress := fun nnn =>
  ⟨decode_of_eq_encode rfl (ofNat_eq_packNnn 0xA#4 nnn), fun s =>
    congrArg (fun a => Host.Outcome.next ({ s with i := a } : State).advance) (addrWord_eq_ofNat nnn)⟩

/-- Settles O45: the sum is modulo 65536, and the product does not wrap. -/
theorem indexAddAndFontArithmetic : Obligations.IndexAddAndFontArithmetic := fun x s =>
  ⟨⟨_, add_byteWord_toNat s.i (s.getV x), rfl⟩, ⟨_, byteWord_mul_five_toNat (s.getV x), rfl⟩⟩

/-! ### Checked accesses (spec/20_memory.md R64 to R66) -/

section
variable (s : State) {len : Nat}

/-- An instruction that reads a block from I on, inside memory. -/
theorem State.attempt_readBytes_of_le (f : List Byte → State) (h : s.i.toNat + len ≤ 4096) :
    s.attempt ((s.readBytes s.base len).map f) = .next (f (s.bytesAt s.i.toNat len)) := by
  rw [State.readBytes_eq, if_pos (.inr h)]
  rfl

/-- An instruction that reads a block from I on which leaves memory: the lowest address out of range is reported. -/
theorem State.attempt_readBytes_of_lt (f : List Byte → State) (hlen : len ≠ 0) (h : 4096 < s.i.toNat + len) :
    s.attempt ((s.readBytes s.base len).map f) = .next (s.raise (.memoryOutOfRange (max s.i.toNat 4096))) := by
  rw [State.readBytes_eq, State.base, if_neg (by omega)]
  rfl

/-- An instruction that stores a block from I on, inside memory. -/
theorem State.attempt_writeBytes_of_le (bytes : List Byte) (h : s.i.toNat + bytes.length ≤ 4096) :
    s.attempt ((s.writeBytes s.base bytes).map State.advance) = .next (s.store s.i.toNat bytes).advance := by
  rw [State.writeBytes_eq, if_pos (.inr h)]
  rfl

/-- An instruction that stores a block from I on which leaves memory: the lowest address out of range is reported. -/
theorem State.attempt_writeBytes_of_lt (bytes : List Byte) (hlen : bytes.length ≠ 0)
    (h : 4096 < s.i.toNat + bytes.length) :
    s.attempt ((s.writeBytes s.base bytes).map State.advance) =
      .next (s.raise (.memoryOutOfRange (max s.i.toNat 4096))) := by
  rw [State.writeBytes_eq, State.base, if_neg (by omega)]
  rfl

/-- Byte `k` of a stored block. -/
theorem State.byteAt_store_add {bytes : List Byte} {a k : Nat} (hk : k < bytes.length) :
    (s.store a bytes).byteAt (a + k) = bytes[k] := by
  have hsub : a + k - a = k := Nat.add_sub_cancel_left a k
  rw [s.byteAt_store_of_inside (Nat.le_add_right a k) (by rwa [hsub])]
  simp only [hsub]

end

/-! ### Store-bcd (R203) -/

/-- The three digits as numbers: hundreds, tens, ones. -/
theorem State.byteAt_store_bcdDigits (s : State) (a : Nat) (b : Byte) :
    ((s.store a (bcdDigits b)).byteAt a).toNat = b.toNat / 100 ∧
      ((s.store a (bcdDigits b)).byteAt (a + 1)).toNat = b.toNat / 10 % 10 ∧
        ((s.store a (bcdDigits b)).byteAt (a + 2)).toNat = b.toNat % 10 := by
  have hbyte := b.isLt
  have digit {k d : Nat} (hk : k < 3) (hkd : (bcdDigits b)[k] = BitVec.ofNat 8 d) (hd : d < 256) :
      ((s.store a (bcdDigits b)).byteAt (a + k)).toNat = d := by
    rw [s.byteAt_store_add hk, hkd, BitVec.toNat_ofNat, Nat.mod_eq_of_lt hd]
  exact ⟨digit (k := 0) (by decide) rfl (by omega), digit (by decide) rfl (by omega),
    digit (by decide) rfl (by omega)⟩

theorem exec_ldBVx_of_lt {s : State} {x : Reg} (h : s.i.toNat + 2 < 4096) :
    exec (.ldBVx x) s = .next (s.store s.i.toNat (bcdDigits (s.getV x))).advance :=
  s.attempt_writeBytes_of_le (bcdDigits (s.getV x)) (by rw [length_bcdDigits]; omega)

theorem exec_ldBVx_of_le {s : State} {x : Reg} (h : 4096 ≤ s.i.toNat + 2) :
    exec (.ldBVx x) s = .next (s.raise (.memoryOutOfRange (max s.i.toNat 4096))) :=
  s.attempt_writeBytes_of_lt (bcdDigits (s.getV x)) nofun (by rw [length_bcdDigits]; omega)

/-- Settles O46: inside memory the instruction is the store of the three digits, otherwise the fault is taken. -/
theorem storeBcdWritesThreeDigits : Obligations.StoreBcdWritesThreeDigits := by
  refine fun x => ⟨decode_of_eq_encode rfl (ofNat_eq_packXnn_base 0xF#4 x 0x33#8), fun s =>
    ⟨fun h => ?_, exec_ldBVx_of_le⟩⟩
  obtain ⟨hhundreds, htens, hones⟩ := s.byteAt_store_bcdDigits s.i.toNat (s.getV x)
  have hexec := exec_ldBVx_of_lt (x := x) h
  refine ⟨_, hexec, rfl, hhundreds, htens, hones, ?_, fun a => exec_ldBVx_byteAt hexec⟩
  simp only [State.advance_eq, State.complete_byteAt, hhundreds, htens, hones]
  omega

/-! ### Register-load (R205) -/

/-- A register load writes the register file only, and the instruction completes. -/
theorem State.loadRegs_advance (s : State) (bytes : List Byte) :
    (s.loadRegs bytes).advance =
      { s with v := (s.loadRegs bytes).v, pc := s.pc + 2, mode := .running, status := .ok } := by
  simp only [State.advance_eq, State.complete, State.loadRegs]

theorem exec_ldVxMem_of_lt {s : State} {x : Reg} (h : s.i.toNat + x.val < 4096) :
    exec (.ldVxMem x) s =
      .next { s with
        v := (s.loadRegs (s.bytesAt s.i.toNat (x.val + 1))).v, pc := s.pc + 2, mode := .running, status := .ok } :=
  (s.attempt_readBytes_of_le (fun bytes => (s.loadRegs bytes).advance) (by omega)).trans
    (congrArg Host.Outcome.next (s.loadRegs_advance _))

theorem exec_ldVxMem_of_le {s : State} {x : Reg} (h : 4096 ≤ s.i.toNat + x.val) :
    exec (.ldVxMem x) s = .next (s.raise (.memoryOutOfRange (max s.i.toNat 4096))) :=
  s.attempt_readBytes_of_lt (fun bytes => (s.loadRegs bytes).advance) x.val.succ_ne_zero (by omega)

/-- A register load gives register `k` byte `k`, where there is one, and keeps it otherwise. -/
theorem State.getV_loadRegs (s : State) (bytes : List Byte) (k : Reg) :
    (s.loadRegs bytes).getV k = bytes.getD k.val (s.getV k) := by
  simp [State.getV]

/-- The registers after a register-load inside memory. -/
theorem State.getV_loadRegs_bytesAt (s : State) (a : Nat) (x k : Reg) :
    (s.loadRegs (s.bytesAt a (x.val + 1))).getV k = if k ≤ x then s.byteAt (a + k.val) else s.getV k := by
  simp only [State.getV_loadRegs, State.getD_bytesAt, Nat.lt_succ_iff, Fin.le_def]

/-- Settles O48: inside memory the instruction is the load of the bytes read, otherwise the fault is taken. -/
theorem registerLoadReadsTheRegisters : Obligations.RegisterLoadReadsTheRegisters := fun x =>
  ⟨decode_of_eq_encode rfl (ofNat_eq_packXnn_base 0xF#4 x 0x65#8), fun s =>
    ⟨fun h => ⟨_, exec_ldVxMem_of_lt h, rfl, s.getV_loadRegs_bytesAt s.i.toNat x⟩, exec_ldVxMem_of_le⟩⟩

/-! ### Register-dump (R204) -/

theorem exec_ldMemVx_of_lt {s : State} {x : Reg} (h : s.i.toNat + x.val < 4096) :
    exec (.ldMemVx x) s = .next (s.store s.i.toNat (s.firstRegs x)).advance :=
  s.attempt_writeBytes_of_le (s.firstRegs x) (by rw [State.length_firstRegs]; omega)

theorem exec_ldMemVx_of_le {s : State} {x : Reg} (h : 4096 ≤ s.i.toNat + x.val) :
    exec (.ldMemVx x) s = .next (s.raise (.memoryOutOfRange (max s.i.toNat 4096))) :=
  s.attempt_writeBytes_of_lt (s.firstRegs x) (by rw [State.length_firstRegs]; exact x.val.succ_ne_zero)
    (by rw [State.length_firstRegs]; omega)

/-- Byte `k` of the registers dumped is register `k`. -/
theorem State.getElem_firstRegs (s : State) {x k : Reg} (hk : k.val < (s.firstRegs x).length) :
    (s.firstRegs x)[k.val] = s.getV k := by
  simp [State.firstRegs, State.getV]

/-- The bytes after a register-dump inside memory. -/
theorem State.byteAt_store_firstRegs (s : State) (a : Nat) {x k : Reg} (hk : k ≤ x) :
    (s.store a (s.firstRegs x)).byteAt (a + k.val) = s.getV k := by
  have hlen : k.val < (s.firstRegs x).length := by
    rw [State.length_firstRegs]
    exact Nat.lt_succ_of_le hk
  rw [s.byteAt_store_add hlen, State.getElem_firstRegs]

/-- Settles O47: inside memory the instruction is the store of the registers, and a load reads at the same I the bytes
it stored; otherwise the fault is taken. -/
theorem registerDumpStoresTheRegisters : Obligations.RegisterDumpStoresTheRegisters := by
  refine fun x => ⟨decode_of_eq_encode rfl (ofNat_eq_packXnn_base 0xF#4 x 0x55#8), fun s =>
    ⟨fun h => ?_, exec_ldMemVx_of_le⟩⟩
  have hexec := exec_ldMemVx_of_lt h
  have hdump (k : Reg) (hk : k ≤ x) := s.byteAt_store_firstRegs s.i.toNat hk
  refine ⟨_, hexec, rfl, hdump, fun a => exec_ldMemVx_byteAt hexec, fun v => ?_⟩
  refine ⟨_, exec_ldVxMem_of_lt h, rfl, fun k hk => ?_⟩
  exact (State.getV_loadRegs_bytesAt _ s.i.toNat x k).trans ((if_pos hk).trans (hdump k hk))

end Sys2Proof.Machine
end

