-- ==== Sys2Proof/Proofs/Display.lean ====
section
/-! PROOF. Display.lean: clear-screen and draw-sprite (spec/44_display.md): the cells a sprite hits, the state a
completed draw leaves, and the draw that leaves memory. -/

namespace Sys2Proof.Machine

/-! ### The cells a sprite hits (R222, R223) -/

section
variable (s : State) (x y : Reg) (n : Nat)

/-- Cell `k` is the target of a 1 bit of the `n` sprite bytes at I, drawn at column Vx and row Vy: columns wrap, rows
from 32 on have no cell. -/
def State.SpriteHits (k : Nat) : Prop :=
  ∃ row col, row < n ∧ col < 8 ∧ (s.byteAt (s.i.toNat + row)).getLsbD (7 - col) = true ∧
    (s.getV y).toNat + row < 32 ∧ k = ((s.getV y).toNat + row) * 64 + ((s.getV x).toNat + col) % 64

/-- The state that DRW leaves when it completes (R221, R224, R225). -/
def State.afterDraw : State :=
  let drawn := drawRows (s.getV x).toNat (s.getV y).toNat 0 (s.bytesAt s.i.toNat n) (s.fb, false)
  ({ s with fb := drawn.1, redraw := true }.setV vF (flagByte drawn.2)).advance

end

theorem spriteCell_eq_some_iff {vx vy row col k : Nat} :
    spriteCell vx vy row col = some k ↔ vy + row < 32 ∧ k = (vy + row) * 64 + (vx + col) % 64 := by
  unfold spriteCell
  split
  · next hrow => simp [hrow]
  · next hrow => simp [Nat.lt_of_not_le hrow, eq_comm]

section
variable {s : State} {x y : Reg} {n k : Nat}

/-- The hits of the model's drawing loop are the hits of the sprite in memory. -/
theorem spriteHit_bytesAt :
    spriteHit (s.getV x).toNat (s.getV y).toNat 0 (s.bytesAt s.i.toNat n) k ↔ s.SpriteHits x y n k := by
  simp only [spriteHit, columnHit, State.length_bytesAt, List.mem_range, Nat.zero_add, spriteCell_eq_some_iff,
    State.getD_bytesAt, State.SpriteHits]
  constructor
  · rintro ⟨row, hrow, col, hcol, hbit, hcell⟩
    exact ⟨row, col, hrow, hcol, by rwa [if_pos hrow] at hbit, hcell⟩
  · rintro ⟨row, col, hrow, hcol, hbit, hcell⟩
    exact ⟨row, hrow, col, hcol, by rwa [if_pos hrow], hcell⟩

/-! ### A draw that completes -/

/-- A sprite of no row, or one whose last byte is in memory, is drawn. -/
theorem exec_drw_of_lt (h : n = 0 ∨ s.i.toNat + n - 1 < 4096) : exec (.drw x y n) s = .next (s.afterDraw x y n) := by
  show execDrw x y n s = _
  rw [execDrw, State.readBytes_eq, State.base, if_pos (by omega)]
  rfl

theorem State.afterDraw_cell_of_hit (h : s.SpriteHits x y n k) : (s.afterDraw x y n).fb.cell k = !s.fb.cell k := by
  obtain ⟨hcell, -⟩ := drawRows_spec (s.getV x).toNat (s.getV y).toNat 0 (s.bytesAt s.i.toNat n) (s.fb, false)
  exact (hcell k).trans (by rw [decide_eq_true (spriteHit_bytesAt.2 h), Bool.xor_true])

theorem State.afterDraw_cell_of_not_hit (h : ¬s.SpriteHits x y n k) :
    (s.afterDraw x y n).fb.cell k = s.fb.cell k := by
  obtain ⟨hcell, -⟩ := drawRows_spec (s.getV x).toNat (s.getV y).toNat 0 (s.bytesAt s.i.toNat n) (s.fb, false)
  exact (hcell k).trans (by rw [decide_eq_false (mt spriteHit_bytesAt.1 h), Bool.xor_false])

/-- VF after a draw is the flag of the collision: a hit cell was set (R224). -/
theorem State.afterDraw_v (s : State) (x y : Reg) (n : Nat) :
    ∃ collision : Bool, (s.afterDraw x y n).v = s.v.set 15 (flagByte collision) ∧
      (collision = true ↔ ∃ k, s.SpriteHits x y n k ∧ s.fb.cell k = true) := by
  obtain ⟨-, hcollision⟩ := drawRows_spec (s.getV x).toNat (s.getV y).toNat 0 (s.bytesAt s.i.toNat n) (s.fb, false)
  refine ⟨_, rfl, hcollision.trans ?_⟩
  simp only [spriteHit_bytesAt, Bool.false_eq_true, false_or, and_comm]

/-! ### The double draw (R221) -/

/-- A draw moves no coordinate but VF, nor the sprite, so a second draw hits the same cells. -/
theorem State.afterDraw_spriteHits (hx : x ≠ 15) (hy : y ≠ 15) :
    (s.afterDraw x y n).SpriteHits x y n k ↔ s.SpriteHits x y n k := by
  have hvx : (s.afterDraw x y n).getV x = s.getV x := State.getV_setV_other _ _ _ _ hx
  have hvy : (s.afterDraw x y n).getV y = s.getV y := State.getV_setV_other _ _ _ _ hy
  rw [State.SpriteHits, hvx, hvy]
  rfl

/-- Toggling the same cells twice restores them. -/
theorem State.afterDraw_afterDraw_cell (hx : x ≠ 15) (hy : y ≠ 15) :
    ((s.afterDraw x y n).afterDraw x y n).fb.cell k = s.fb.cell k := by
  by_cases h : s.SpriteHits x y n k
  · rw [State.afterDraw_cell_of_hit ((State.afterDraw_spriteHits hx hy).2 h), State.afterDraw_cell_of_hit h,
      Bool.not_not]
  · rw [State.afterDraw_cell_of_not_hit (mt (State.afterDraw_spriteHits hx hy).1 h),
      State.afterDraw_cell_of_not_hit h]

/-- A draw that hits a set cell leaves 1 in VF. -/
theorem State.afterDraw_getV_of_collision (h : s.SpriteHits x y n k) (hset : s.fb.cell k = true) :
    (s.afterDraw x y n).getV 15 = 1 := by
  obtain ⟨collision, hv, hcollision⟩ := s.afterDraw_v x y n
  rw [hcollision.2 ⟨k, h, hset⟩] at hv
  rw [State.getV, hv]
  exact Vector.getElem_set_self _

/-! ### A draw that leaves memory (R66) -/

theorem exec_drw_of_le (hn : 1 ≤ n) (h : 4096 ≤ s.i.toNat + n - 1) :
    exec (.drw x y n) s = .next (s.raise (.memoryOutOfRange (max s.i.toNat 4096))) :=
  s.attempt_readBytes_of_lt _ (by omega) (by omega)

end

/-! ### The statements -/

/-- Settles O49: every cell of the cleared framebuffer is 0. -/
theorem clearScreenClearsEveryCell : Obligations.ClearScreenClearsEveryCell :=
  ⟨decode_encode (i := .cls) rfl, fun _ => ⟨_, rfl, Screen.cell_clear, rfl⟩⟩

/-- Settles O50, from the cells and the flag a completed draw leaves. -/
theorem drawSpriteTogglesTheHitCells : Obligations.DrawSpriteTogglesTheHitCells := by
  intro x y n s h hit
  obtain ⟨collision, hv, hcollision⟩ := s.afterDraw_v x y n
  refine ⟨s.afterDraw x y n, flagByte collision, exec_drw_of_lt h, hv ▸ rfl, fun _ => State.afterDraw_cell_of_hit,
    fun _ => State.afterDraw_cell_of_not_hit, fun hset => ?_, fun hclear => ?_⟩
  · rw [hcollision.2 hset]
    rfl
  · rw [Bool.eq_false_iff.2 (mt hcollision.1 hclear)]
    rfl

/-- Settles O51: a draw that faults twice changes no cell; of two that complete the second undoes the first, and hits
the cells that the first set. -/
theorem drawingTwiceRestoresTheScreen : Obligations.DrawingTwiceRestoresTheScreen := by
  intro x y n s t u hx hy hfirst hsecond
  by_cases hin : n = 0 ∨ s.i.toNat + n - 1 < 4096
  · obtain rfl := Host.Outcome.next.inj ((exec_drw_of_lt hin).symm.trans hfirst)
    obtain rfl := Host.Outcome.next.inj ((exec_drw_of_lt (s := s.afterDraw x y n) hin).symm.trans hsecond)
    refine ⟨fun _ => State.afterDraw_afterDraw_cell hx hy, fun ⟨k, hclear, hset⟩ => ?_⟩
    have hhit : s.SpriteHits x y n k := by
      by_contra hno
      rw [State.afterDraw_cell_of_not_hit hno, hclear] at hset
      cases hset
    exact State.afterDraw_getV_of_collision ((State.afterDraw_spriteHits hx hy).2 hhit) hset
  · have hn : 1 ≤ n := by omega
    have hout : 4096 ≤ s.i.toNat + n - 1 := by omega
    obtain rfl := Host.Outcome.next.inj ((exec_drw_of_le hn hout).symm.trans hfirst)
    obtain rfl := Host.Outcome.next.inj ((exec_drw_of_le hn (s := s.raise _) hout).symm.trans hsecond)
    exact ⟨fun _ => rfl, fun ⟨_, hclear, hset⟩ => absurd (hclear.symm.trans hset) Bool.false_ne_true⟩

/-- Settles O52: a sprite with some row whose last byte is out of memory faults in its checked read. -/
theorem drawOutsideMemoryHalts : Obligations.DrawOutsideMemoryHalts := fun _ _ _ _ => exec_drw_of_le

end Sys2Proof.Machine
end

