-- ==== Sys2Proof/Proofs/Keys.lean ====
section
/-! PROOF. Keys.lean: the key skips, wait-for-key and the timer moves (spec/45_keys_timers.md): what a key test
answers, the key reported, and the timers and the tone after any number of ticks. -/

namespace Sys2Proof.Machine

/-! ### Wait-for-key (R243, R246) -/

/-- With a key down some key is picked. -/
theorem exists_keyPick_eq_some {keys : BitVec 16} {j : Reg} (hj : keys.getLsbD j.val = true) :
    ∃ k, keyPick keys = some k := by
  cases hpick : keyPick keys with
  | some k => exact ⟨k, rfl⟩
  | none =>
    have hup : keys.getLsbD j.val = false := (keyPick_eq_none keys).1 hpick j
    exact absurd (hj.symm.trans hup) nofun

/-- Wait-for-key completes with the key picked. -/
theorem exec_ldVxK_of_keyPick {s : State} {k : Reg} (hpick : keyPick s.key = some k) (x : Reg) :
    exec (.ldVxK x) s = .next (s.setV x (regByte k)).advance := by
  show execLdVxK x s = _
  rw [execLdVxK, hpick]

/-- Settles O54: a key is picked, it is pressed, and so it is the only pressed key if there is one. -/
theorem waitForKeyReportsAPressedKey : Obligations.WaitForKeyReportsAPressedKey := by
  intro x j s hj
  obtain ⟨k, hpick⟩ := exists_keyPick_eq_some hj
  have hpressed := keyPick_pressed s.key k hpick
  exact ⟨k, hpressed, fun honly => honly k hpressed, exec_ldVxK_of_keyPick hpick x⟩

/-! ### The timers over several ticks (spec/40_step_cycle.md R130) -/

theorem iterate_countDown_toNat (b : Byte) (k : Nat) : (countDown^[k] b).toNat = b.toNat - k := by
  induction k with
  | zero => rfl
  | succ k ih => rw [Function.iterate_succ_apply', countDown_toNat, ih, Nat.sub_sub]

theorem State.iterate_timerTick_dt (s : State) (k : Nat) : (State.timerTick^[k] s).dt = countDown^[k] s.dt :=
  Function.Semiconj.iterate_right State.timerTick_dt k s

theorem State.iterate_timerTick_st (s : State) (k : Nat) : (State.timerTick^[k] s).st = countDown^[k] s.st :=
  Function.Semiconj.iterate_right State.timerTick_st k s

/-- The tone is signalled by the tick whose number is the sound timer's count, if that is not 0: the tick after `k`
others signals it when the count is `k + 1`. -/
theorem State.iterate_timerTick_tonePending_iff (s : State) (k : Nat) :
    (State.timerTick^[k] s).tonePending = true ↔ s.tonePending = true ∨ 1 ≤ s.st.toNat ∧ s.st.toNat ≤ k := by
  induction k with
  | zero =>
    have hnone : ¬(1 ≤ s.st.toNat ∧ s.st.toNat ≤ 0) := by omega
    exact (or_iff_left hnone).symm
  | succ k ih =>
    have hlast : 1 ≤ s.st.toNat ∧ s.st.toNat ≤ k + 1 ↔
        (1 ≤ s.st.toNat ∧ s.st.toNat ≤ k) ∨ s.st.toNat - k = 1 := by omega
    rw [Function.iterate_succ_apply', State.timerTick_tonePending_iff, ih, State.iterate_timerTick_st,
      iterate_countDown_toNat, hlast, or_assoc]

/-- Settles O56: the words are encodings, each move is one write, and the ticks count down from the value written. -/
theorem timerMovesAndTheirTicks : Obligations.TimerMovesAndTheirTicks := by
  refine fun x => ⟨decode_of_eq_encode rfl (ofNat_eq_packXnn_base 0xF#4 x 0x07#8),
    decode_of_eq_encode rfl (ofNat_eq_packXnn_base 0xF#4 x 0x15#8),
    decode_of_eq_encode rfl (ofNat_eq_packXnn_base 0xF#4 x 0x18#8), fun s => ⟨rfl, rfl, rfl, fun k => ⟨?_, ?_, ?_⟩⟩⟩
  · rw [State.iterate_timerTick_dt, iterate_countDown_toNat]
  · rw [State.iterate_timerTick_st, iterate_countDown_toNat]
  · exact State.iterate_timerTick_tonePending_iff _ k

/-! ### The key skips (R240, R241) -/

theorem State.attempt_keyDown_of_lt (s : State) {b : Byte} (f : Bool → State) (h : b.toNat < 16) :
    s.attempt ((s.keyDown b).map f) = .next (f (s.key.getLsbD b.toNat)) := by
  rw [s.keyDown_of_lt b h]
  rfl

theorem State.attempt_keyDown_of_le (s : State) {b : Byte} (f : Bool → State) (h : 16 ≤ b.toNat) :
    s.attempt ((s.keyDown b).map f) = .next (s.raise (.keyIndexOutOfRange b)) := by
  rw [s.keyDown_of_le b h]
  rfl

/-- The skip PC policy as an addition to PC (spec/40_step_cycle.md R126). -/
theorem State.skipIf_eq_add (s : State) (b : Bool) :
    s.skipIf b = s.complete (s.pc + if b = true then 4 else 2) := by
  cases b <;> rfl

theorem State.skipIf_not_eq_add (s : State) (b : Bool) :
    s.skipIf (!b) = s.complete (s.pc + if b = true then 2 else 4) := by
  cases b <;> rfl

/-- Settles O53: a key number below 16 answers the key's flag, on which both skips turn; any other one faults. -/
theorem keySkipsReadTheNamedKey : Obligations.KeySkipsReadTheNamedKey := fun _ s =>
  ⟨fun h =>
    ⟨(s.attempt_keyDown_of_lt _ h).trans (congrArg _ (s.skipIf_eq_add _)),
      (s.attempt_keyDown_of_lt _ h).trans (congrArg _ (s.skipIf_not_eq_add _))⟩,
    fun h => ⟨s.attempt_keyDown_of_le _ h, s.attempt_keyDown_of_le _ h⟩⟩

end Sys2Proof.Machine
end

