-- ==== Sys2Proof/Proofs/Exceptions.lean ====
section
/-! PROOF. Exceptions.lean: the two stack faults, and the load of a program that is too long
(spec/60_exceptions.md). -/

namespace Sys2Proof.Machine

/-! ### The stack faults (R262, R263) -/

/-- CALL checks the stack first: with no room for its push it takes the fault. -/
theorem exec_call_of_full {s : State} (h : s.sp.val = 16) (nnn : Addr) :
    exec (.call nnn) s = .next (s.raise .stackOverflow) := by
  show execCall nnn s = _
  rw [execCall, s.push_of_full _ h]
  rfl

/-- RET with no entry to pop takes the fault. -/
theorem exec_ret_of_empty {s : State} (h : s.sp.val = 0) : exec .ret s = .next (s.raise .stackUnderflow) := by
  show execRet s = _
  rw [execRet, s.pop_of_empty h]
  rfl

/-- Settles O31: taking a fault writes mode and status only. -/
theorem stackFaultsHalt : Obligations.StackFaultsHalt :=
  ⟨fun nnn _ h => exec_call_of_full h nnn, fun _ => exec_ret_of_empty⟩

/-! ### Loads (R266, spec/70_reset_and_hazards.md R302) -/

theorem State.loadProgram_of_lt (s : State) {bytes : List Byte} (h : 3584 < bytes.length) :
    s.loadProgram bytes = (.programTooLarge, s) :=
  if_pos h

theorem State.loadProgram_of_le (s : State) {bytes : List Byte} (h : bytes.length ≤ 3584) :
    s.loadProgram bytes = (.ok, s.store Config.programBase bytes) :=
  if_neg (Nat.not_lt.2 h)

/-- Settles O58: whether a load succeeds turns on the length of its program alone, in the state after a failed load
too. -/
theorem programTooLargeFailsTheLoad : Obligations.ProgramTooLargeFailsTheLoad := fun s bytes hlong =>
  ⟨s.loadProgram_of_lt hlong, fun _ hshort => congrArg Prod.fst ((s.loadProgram bytes).2.loadProgram_of_le hshort)⟩

end Sys2Proof.Machine
end

