-- ==== Sys2Proof/Proofs/Reset.lean ====
section
/-! PROOF. Reset.lean: the state after reset, the host's ports and the load of a program that fits, and that each keeps
the invariant (spec/70_reset_and_hazards.md R300 to R306). -/

namespace Sys2Proof.Machine

/-! ### The contents of memory after reset (spec/20_memory.md R62) -/

theorem initialByte_of_le (font : Font) {a : Nat} (ha : 80 ≤ a) : initialByte font a = 0 :=
  dif_neg (Nat.not_lt.2 ha)

/-- Glyph `d` lies at `5*d`, its rows in order. -/
theorem initialByte_glyph (font : Font) (d : Fin 16) (row : Fin 5) :
    initialByte font (5 * d.val + row.val) = font[d][row] := by
  have hin : 5 * d.val + row.val < Config.fontSize := by
    show _ < 80
    omega
  have hdigit : (5 * d.val + row.val) / 5 = d.val := by omega
  have hrow : (5 * d.val + row.val) % 5 = row.val := by omega
  rw [initialByte, dif_pos hin]
  simp only [hdigit, hrow, Fin.getElem_fin]

@[simp] theorem State.byteAt_resetCore (s : State) (a : Nat) : s.resetCore.byteAt a = initialByte s.font a :=
  Memory.read_nil s.font a

/-- Settles O7: the fields are reset's own, and memory reads as its initial contents. -/
theorem resetLeavesTheStatedValues : Obligations.ResetLeavesTheStatedValues := by
  refine ⟨rfl, fun s => ⟨rfl, Screen.cell_clear, fun a ha => ?_, fun d row => ?_⟩, fun _ => rfl, by decide⟩
  · rw [s.byteAt_resetCore, initialByte_of_le s.font ha]
  · rw [s.byteAt_resetCore, initialByte_glyph]

/-! ### The ports (R303 to R306) -/

/-- A key write changes the flag of its key and no other. -/
theorem State.setKey_key_getLsbD (s : State) (k j : Reg) (pressed : Bool) :
    (s.setKey k pressed).key.getLsbD j.val = if j = k then pressed else s.key.getLsbD j.val := by
  have hbit : (1#16 <<< k.val).getLsbD j.val = decide (j = k) := by
    rw [← BitVec.twoPow_eq, BitVec.getLsbD_twoPow]
    simp [Fin.ext_iff, eq_comm]
  cases pressed with
  | true =>
    show (s.key ||| 1#16 <<< k.val).getLsbD j.val = _
    rw [BitVec.getLsbD_or, hbit]
    by_cases hj : j = k <;> simp [hj]
  | false =>
    show (s.key &&& ~~~(1#16 <<< k.val)).getLsbD j.val = _
    rw [BitVec.getLsbD_and, BitVec.getLsbD_not, hbit]
    by_cases hj : j = k <;> simp [hj]

@[simp] theorem State.length_framebuffer (s : State) : s.framebuffer.length = 2048 := by
  rw [State.framebuffer, List.length_map, List.length_range]

theorem State.getElem_framebuffer (s : State) {k : Nat} (hk : k < s.framebuffer.length) :
    s.framebuffer[k] = s.fb.cell k := by
  simp only [State.framebuffer, List.getElem_map, List.getElem_range]

/-- Settles O60: each port writes its own field, if any; the key write by its bits, the cells by their numbers. -/
theorem hostPortsReadAndWriteTheirFlags : Obligations.HostPortsReadAndWriteTheirFlags := fun s =>
  ⟨fun k j pressed => ⟨rfl, s.setKey_key_getLsbD k j pressed⟩, rfl, rfl, s.length_framebuffer,
    fun _ => s.getElem_framebuffer, rfl⟩

/-! ### The load (R302) -/

/-- Settles O59: a load that fits is one store from 0x200 on. -/
theorem loadProgramCopiesTheBytes : Obligations.LoadProgramCopiesTheBytes := fun s _ hfits =>
  ⟨_, s.loadProgram_of_le hfits, rfl, fun _ => s.byteAt_store_add, fun _ => s.byteAt_store_of_outside⟩

/-! ### The invariant -/

theorem State.inv_resetWith (font : Font) : (State.resetWith font).Inv where
  memory := Memory.wf_nil font
  pcBound := show (0x200#16).toNat ≤ 0x10FE by decide
  stackBound k := by simp [State.resetWith]
  agrees := trivial
  recorded _ hhalted := nomatch hhalted

/-- The invariant reads neither the key flags nor the host's two flags nor the count of draws. -/
theorem State.Inv.withPorts {s : State} (hs : s.Inv) (key : BitVec 16) (redraw tone : Bool) (draws : Nat) :
    ({ s with key := key, redraw := redraw, tonePending := tone, draws := draws } : State).Inv where
  memory := hs.memory
  pcBound := hs.pcBound
  stackBound := hs.stackBound
  agrees := hs.agrees
  recorded c hhalted := Fault.recorded_congr rfl (hs.recorded c hhalted)

theorem State.inv_resetCore (s : State) : s.resetCore.Inv :=
  (State.inv_resetWith s.font).withPorts _ _ _ s.draws

/-- A store within memory keeps the invariant. -/
theorem State.Inv.store {s : State} (hs : s.Inv) {a : Nat} {bytes : List Byte}
    (hin : a + bytes.length ≤ Config.memSize) : (s.store a bytes).Inv where
  memory := s.wf_store a bytes hs.memory hin
  pcBound := hs.pcBound
  stackBound := hs.stackBound
  agrees := hs.agrees
  recorded c hhalted := Fault.recorded_congr (s.store_sp a bytes) (hs.recorded c hhalted)

/-- A load is refused and changes nothing, or stores a program that ends within memory. -/
theorem State.Inv.loadProgram {s : State} (hs : s.Inv) (bytes : List Byte) : (s.loadProgram bytes).2.Inv := by
  rcases Nat.lt_or_ge 3584 bytes.length with hlong | hfits
  · rw [s.loadProgram_of_lt hlong]
    exact hs
  · rw [s.loadProgram_of_le hfits]
    exact hs.store (Nat.add_le_add_left hfits 0x200)

/-- Settles O18: the draws that go on over `resetCore` are no part of the invariant. -/
theorem resetMeetsTheInvariant : Obligations.ResetMeetsTheInvariant :=
  ⟨State.inv_resetWith customaryFont, State.inv_resetWith, State.inv_resetCore⟩

/-- Settles O19, by the operation: reset, the load, the writes of the ports, and the reads, which change nothing. -/
theorem hostOperationsKeepTheInvariant : Obligations.HostOperationsKeepTheInvariant := by
  intro s op hs
  cases op with
  | reset => exact s.inv_resetCore
  | loadProgram bytes => exact hs.loadProgram bytes
  | setKey | consumeRedrawFlag | pendingTone => exact hs.withPorts _ _ _ _
  | framebuffer | readMode | readStatus => exact hs

end Sys2Proof.Machine
end
